-- ==== Sys2Proof/Word.lean ====
section
/-! DEFINITION. The word types of the Byte-reversal unit (00_scope.md section 5.1, R6, R13). -/

namespace Sys2Proof

/-- A byte: 8 bits, bit 0 the least significant (00_scope.md section 5.1). -/
abbrev Byte := BitVec 8

/-- The width of the value ports `cmd.val` and `rsp.val` (R6). -/
abbrev Word64 := BitVec 64

end Sys2Proof
end

