-- ==== Sys2Proof/Config.lean ====
section
/-! DEFINITION. The parameters the spec leaves OPEN (00_scope.md section 4: `AW`, `NATIVE`, `REGION`) and the values the
model names where the spec gives none. The parameters are plain data that State carries and no step changes
(log 1), so that a statement about every state is a statement about every value of them. -/

namespace Sys2Proof

/-- A byte order: the endianness tag of a command (R50 field `E`) and the value of `NATIVE` (R4). -/
inductive Endian where
  /-- least significant byte first -/
  | le
  /-- most significant byte first -/
  | be
  deriving DecidableEq, Repr

/-- A range of buffer addresses, `base` to `base + size - 1`. -/
structure AddrRange where
  base : Nat
  size : Nat
  deriving DecidableEq, Repr

/-- The parameters of the unit and of a run (00_scope.md section 4). -/
structure Params where
  /-- `AW`: a buffer address is an unsigned integer of `AW` bits (R5). -/
  aw : Nat
  /-- `NATIVE`: the unit's native lane order, fixed when the unit is built (R4). -/
  native : Endian
  /-- `REGION`: the addresses the host has allocated for the unit's use, as a union of ranges (R37). -/
  region : List AddrRange
  deriving DecidableEq, Repr

/-- What a byte of the buffer that is not listed in memory reads as. R44 calls it "the initial content" and gives
no value. DESIGN CHOICE 00H, unsafe (log 4). -/
def Config.unlistedByte : Byte := 0#8

/-- A free value (U9): what a byte of a command's write set holds once reset has abandoned the command (R162), from the
count of free values used so far and the byte that the accesses performed have left there. It has no body: a claim holds
whatever it is, and with the identity it is the prefix that R162 describes (log 9). -/
opaque Config.abandonedByte : Nat → Byte → Byte

/-- The parameters of `State.reset`: `AW` = 32 and `NATIVE` = `LE` are the values of the spec's examples
(00_scope.md section 4), `REGION` is the whole buffer space. DESIGN CHOICE, unsafe (log 1, log 2). -/
def Config.resetParams : Params := { aw := 32, native := .le, region := [⟨0, 2 ^ 32⟩] }

end Sys2Proof
end

