-- ==== Sys2Proof/Syntax.lean ====
section
/-! DEFINITION. The command set `BSU-CS 1.0`: one constructor of `Instr` for each of the 28 rows of
spec/opcode_table.json (30_encoding.md R56). A command word holds no operand (R55); the operands arrive on the ports
`cmd.ptr`, `cmd.val`, `cmd.len` and stand in the latched `Command` (10_state.md R13). -/

namespace Sys2Proof

/-- The field `sz`: a value of 1, 2, 4 or 8 bytes (R3, R50). -/
inductive Size where
  | w8 | w16 | w32 | w64
  deriving DecidableEq, Repr

/-- The 28 commands (R56), one constructor per row of spec/opcode_table.json. -/
inductive Instr where
  | rev8 | rev16 | rev32 | rev64
  | extLe8 | extLe16 | extLe32 | extLe64
  | extBe8 | extBe16 | extBe32 | extBe64
  | appLe8 | appLe16 | appLe32 | appLe64
  | appBe8 | appBe16 | appBe32 | appBe64
  | venc8 | venc16 | venc32 | venc64
  | vdec8 | vdec16 | vdec32 | vdec64
  deriving DecidableEq, Repr

/-- A command as the fields of its word give it: the operation, the size, and the endianness tag where the operation
has one (R51). `rev`, `venc` and `vdec` have none, so a tag on them cannot be written. -/
inductive Shape where
  | rev (sz : Size)
  | ext (e : Endian) (sz : Size)
  | app (e : Endian) (sz : Size)
  | venc (sz : Size)
  | vdec (sz : Size)
  deriving DecidableEq, Repr

/-- The four fields of a command (R13). `ptr` is an unsigned integer of `AW` bits (R5), held as a number below
`2 ^ AW`; the issue of a command keeps its low `AW` bits (log 15). -/
structure Command where
  /-- the command word -/
  cw : Byte
  /-- the byte address of the first buffer byte -/
  ptr : Nat
  /-- the value to reverse, append or encode -/
  val : Word64
  /-- the byte count of a decode -/
  len : Byte
  deriving DecidableEq, Repr

/-- The three fields of a response (R14). -/
structure Response where
  /-- the W-bit result, zero-extended -/
  val : Word64
  /-- the count of bytes written or read -/
  cnt : Byte
  /-- set when the command word was reserved -/
  err : Bool
  deriving DecidableEq, Repr

end Sys2Proof
end

