-- ==== Sys2Proof/WellFormed.lean ====
section
/-! DEFINITION. What a well-formed command and a well-formed command list are (30_encoding.md R56, R57; 00_scope.md R5).
An `Instr` has no operand of its own, so every `Instr` is well-formed; the checks are on a command as the host issues
it. The list of legal words is written out from the table of R56, apart from the decoder. -/

namespace Sys2Proof

/-- The 28 legal command words, in the order of the table of R56. -/
def legalWords : List Byte :=
  [0x00, 0x08, 0x10, 0x18] ++
  [0x01, 0x09, 0x11, 0x19] ++ [0x21, 0x29, 0x31, 0x39] ++
  [0x02, 0x0A, 0x12, 0x1A] ++ [0x22, 0x2A, 0x32, 0x3A] ++
  [0x03, 0x0B, 0x13, 0x1B] ++ [0x04, 0x0C, 0x14, 0x1C]

/-- A command word is legal when it is one of the 28 of R56; every other word is reserved (R57). -/
def legalWord (cw : Byte) : Bool := legalWords.contains cw

/-- The pointer is an unsigned integer of `AW` bits (R5). -/
def Command.ptrFits (aw : Nat) (c : Command) : Bool := decide (c.ptr < 2 ^ aw)

/-- A command the host may put on the command port: a legal word and a pointer of `AW` bits. `cmd.val` and `cmd.len`
may hold anything (R13). -/
def Command.wellFormed (aw : Nat) (c : Command) : Bool := legalWord c.cw && c.ptrFits aw

/-- "A well-formed command list contains no reserved word" (R57). -/
def commandsWellFormed (aw : Nat) (cs : List Command) : Bool := cs.all (Command.wellFormed aw)

end Sys2Proof
end

