-- ==== Sys2Proof/Decode.lean ====
section
/-! DEFINITION. The decoder of R66, total on the 256 command words and rejecting a reserved word by the class of R57
it belongs to, and after it the encoder, written from the field table of R50 and R51. -/

namespace Sys2Proof

/-- The three classes of reserved words (R57). -/
inductive Reserved where
  /-- `cw[7:6]` is not 00 -/
  | highBitsSet
  /-- `op` is 101, 110 or 111 -/
  | reservedOperation
  /-- `E` is set on `rev`, `venc` or `vdec` -/
  | tagOnUntaggedCommand
  deriving DecidableEq, Repr

/-- Field `z`, bits 7:6 (R50). -/
def fieldZ (cw : Byte) : BitVec 2 := cw.extractLsb' 6 2

/-- Field `E`, bit 5 (R50). -/
def fieldE (cw : Byte) : BitVec 1 := cw.extractLsb' 5 1

/-- Field `sz`, bits 4:3 (R50). -/
def fieldSz (cw : Byte) : BitVec 2 := cw.extractLsb' 3 2

/-- Field `op`, bits 2:0 (R50). -/
def fieldOp (cw : Byte) : BitVec 3 := cw.extractLsb' 0 3

/-- The size the field `sz` names: 00 = 8 bits, 01 = 16, 10 = 32, 11 = 64 (R50). -/
def sizeOfField (sz : BitVec 2) : Size :=
  if sz = 0b00#2 then .w8
  else if sz = 0b01#2 then .w16
  else if sz = 0b10#2 then .w32
  else .w64

/-- The byte order the field `E` names: 0 = little-endian, 1 = big-endian (R50). -/
def endianOfField (e : BitVec 1) : Endian := if e = 0#1 then .le else .be

/-- The command of each shape (R56). -/
def Shape.instr : Shape → Instr
  | .rev .w8 => .rev8 | .rev .w16 => .rev16 | .rev .w32 => .rev32 | .rev .w64 => .rev64
  | .ext .le .w8 => .extLe8 | .ext .le .w16 => .extLe16 | .ext .le .w32 => .extLe32 | .ext .le .w64 => .extLe64
  | .ext .be .w8 => .extBe8 | .ext .be .w16 => .extBe16 | .ext .be .w32 => .extBe32 | .ext .be .w64 => .extBe64
  | .app .le .w8 => .appLe8 | .app .le .w16 => .appLe16 | .app .le .w32 => .appLe32 | .app .le .w64 => .appLe64
  | .app .be .w8 => .appBe8 | .app .be .w16 => .appBe16 | .app .be .w32 => .appBe32 | .app .be .w64 => .appBe64
  | .venc .w8 => .venc8 | .venc .w16 => .venc16 | .venc .w32 => .venc32 | .venc .w64 => .venc64
  | .vdec .w8 => .vdec8 | .vdec .w16 => .vdec16 | .vdec .w32 => .vdec32 | .vdec .w64 => .vdec64

/-- The shape of each command (R56). -/
def Instr.shape : Instr → Shape
  | .rev8 => .rev .w8 | .rev16 => .rev .w16 | .rev32 => .rev .w32 | .rev64 => .rev .w64
  | .extLe8 => .ext .le .w8 | .extLe16 => .ext .le .w16 | .extLe32 => .ext .le .w32 | .extLe64 => .ext .le .w64
  | .extBe8 => .ext .be .w8 | .extBe16 => .ext .be .w16 | .extBe32 => .ext .be .w32 | .extBe64 => .ext .be .w64
  | .appLe8 => .app .le .w8 | .appLe16 => .app .le .w16 | .appLe32 => .app .le .w32 | .appLe64 => .app .le .w64
  | .appBe8 => .app .be .w8 | .appBe16 => .app .be .w16 | .appBe32 => .app .be .w32 | .appBe64 => .app .be .w64
  | .venc8 => .venc .w8 | .venc16 => .venc .w16 | .venc32 => .venc .w32 | .venc64 => .venc .w64
  | .vdec8 => .vdec .w8 | .vdec16 => .vdec .w16 | .vdec32 => .vdec .w32 | .vdec64 => .vdec .w64

/-- The shape the fields of a word name once the checks of R66 have passed (R51). -/
def shapeOfFields (op : BitVec 3) (e : BitVec 1) (sz : BitVec 2) : Shape :=
  if op = 0b000#3 then .rev (sizeOfField sz)
  else if op = 0b001#3 then .ext (endianOfField e) (sizeOfField sz)
  else if op = 0b010#3 then .app (endianOfField e) (sizeOfField sz)
  else if op = 0b011#3 then .venc (sizeOfField sz)
  else .vdec (sizeOfField sz)

/-- The decoder of R66. It reads the command word only. -/
def decode (cw : Byte) : Except Reserved Instr :=
  if fieldZ cw ≠ 0#2 then .error .highBitsSet
  else if 4 < (fieldOp cw).toNat then .error .reservedOperation
  else if fieldE cw = 1#1 ∧ fieldOp cw ≠ 0b001#3 ∧ fieldOp cw ≠ 0b010#3 then .error .tagOnUntaggedCommand
  else .ok (shapeOfFields (fieldOp cw) (fieldE cw) (fieldSz cw)).instr

/-- The field `sz` of a size (R50). -/
def Size.field : Size → BitVec 2
  | .w8 => 0b00#2
  | .w16 => 0b01#2
  | .w32 => 0b10#2
  | .w64 => 0b11#2

/-- The field `E` of a byte order (R50). -/
def Endian.field : Endian → BitVec 1
  | .le => 0#1
  | .be => 1#1

/-- The word of a shape: `z` = 00, then `E`, `sz` and `op` (R50, R51). -/
def Shape.word : Shape → Byte
  | .rev sz => 0b00#2 ++ 0#1 ++ sz.field ++ 0b000#3
  | .ext e sz => 0b00#2 ++ e.field ++ sz.field ++ 0b001#3
  | .app e sz => 0b00#2 ++ e.field ++ sz.field ++ 0b010#3
  | .venc sz => 0b00#2 ++ 0#1 ++ sz.field ++ 0b011#3
  | .vdec sz => 0b00#2 ++ 0#1 ++ sz.field ++ 0b100#3

/-- The encoder: the one command word of a command (R59). -/
def encode (i : Instr) : Byte := i.shape.word

/-- What the decoder reads from an instruction of `nbits` bits `w`. Every command is exactly one 8-bit word (R59), so
any other length is no command. -/
def decodeTableWord (nbits w : Nat) : Option Instr :=
  if nbits = 8 then
    match decode (BitVec.ofNat 8 w) with
    | .ok i => some i
    | .error _ => none
  else none

end Sys2Proof
end

