-- ==== Sys2Proof/Machine/State.lean ====
section
/-! DEFINITION. The state of one unit, its host and the buffer memory they share (10_state.md), and the reasons a step can
stop. -/

namespace Sys2Proof.Machine

/-- The buffer memory (R19) as its listed bytes: addresses strictly rising, no entry equal to what an unlisted address
reads as (`Memory.wf`). -/
abbrev Memory := List Host.Cell

/-- When an assertion of the reset input lands (R160, R162). -/
inductive ResetPoint where
  /-- during the command in flight, after it has performed `k` byte accesses and before its response; at once if no
  command is in flight -/
  | inFlight (k : Nat)
  /-- not while a command is in flight: while its response is pending, or while the unit is idle -/
  | responsePending
  /-- only while the unit is idle and no response is pending -/
  | idle
  deriving DecidableEq, Repr

/-- What the host does next (R11, R12, R19, R160). -/
inductive HostEvent where
  /-- presents a command on the command port -/
  | issue (c : Command)
  /-- stores a byte into its buffer, between commands -/
  | store (addr : Nat) (b : Byte)
  /-- asserts the reset input -/
  | reset (point : ResetPoint)
  deriving DecidableEq, Repr

/-- The machine stops with a fault. -/
inductive Fault where
  /-- `BufferPrecondition` (R142, R143): raised by `ext`, `app`, `venc` and `vdec` when an address the command requires
  is outside `REGION` or above `2 ^ AW - 1`, with the command and the first offending address. The hardware checks
  nothing, and the spec gives the violation no value (U1). Safe: the model stops where the unit goes on (log 7). -/
  | bufferPrecondition (cmd : Command) (addr : Nat)
  /-- Raised by the host's own store to an address above `2 ^ AW - 1`, which does not exist (R19). Safe (log 14). -/
  | outsideBufferSpace (addr : Nat)
  deriving DecidableEq, Repr

/-- The machine has no meaning for the instruction. -/
inductive Refusal where
  /-- Raised by the dispatcher for an instruction that has no meaning yet; no arm raises it. Safe. -/
  | notModelled (mnemonic : String)
  deriving DecidableEq, Repr

/-- The state of the unit (10_state.md section 1), the buffer memory, the open parameters and the host's side of a run. -/
structure State where
  /-- `AW`, `NATIVE` and `REGION`: parameters, never changed (R4, R5, R37; log 1) -/
  cfg : Params
  /-- the buffer memory (R19) -/
  mem : Memory
  /-- a command is executing (R12) -/
  busy : Bool
  /-- the latched command `cmd.cw`, `cmd.ptr`, `cmd.val`, `cmd.len` (R13); U10 lets it hold any value outside a command,
  and the model keeps the last one latched until the next issue or reset. DESIGN CHOICE (log 21) -/
  cmd : Command
  /-- working register: the value before and after byte reversal (R15) -/
  t : Word64
  /-- working register: what is left of the value to encode (R15) -/
  rem : Word64
  /-- working register: the OR of the groups read so far (R15) -/
  acc : Word64
  /-- working register: the index of the next byte (R15) -/
  idx : Byte
  /-- working register: the byte just read (R15) -/
  bt : Byte
  /-- the response that waits for the host, if one is pending (R12, R14) -/
  rsp : Option Response
  /-- the model's own: what the host does next, in order (R11; log 5) -/
  host : List HostEvent
  /-- the model's own: the responses the host has taken, oldest first (R156; log 19) -/
  taken : List Response
  /-- the model's own: the sticky fault mark of the run (R149; log 6) -/
  faultMark : Bool
  /-- the model's own: a command has been issued and neither its response nor that of a later command has been taken, so
  that the run has not come to the end of R156 (log 22) -/
  unanswered : Bool
  /-- the model's own: how many free values have been used (log 9) -/
  freeCount : Nat
  deriving DecidableEq, Repr

/-- What a step or a meaning answers. -/
abbrev Result := Host.Outcome State Fault Refusal

/-- The latched command after reset. R22 calls it unspecified. DESIGN CHOICE zero, unsafe (log 3). -/
def Command.afterReset : Command := { cw := 0, ptr := 0, val := 0, len := 0 }

/-- The machine right after reset (R22, R160): idle, no response pending, nothing listed in memory, no host event. The
working registers and the latched command are unspecified there; zero is the model's choice (log 3), and the
parameters are those of `Config.resetParams` (log 1, log 2). The count of free values starts at 0 (log 9). -/
def State.reset : State :=
  { cfg := Config.resetParams
    mem := []
    busy := false
    cmd := Command.afterReset
    t := 0
    rem := 0
    acc := 0
    idx := 0
    bt := 0
    rsp := none
    host := []
    taken := []
    faultMark := false
    unanswered := false
    freeCount := 0 }

end Sys2Proof.Machine
end

