-- ==== Sys2Proof/Machine/Ops.lean ====
section
/-! DEFINITION. The named operations over the buffer memory and the ports: one byte read and one byte write (R30),
`MemRead` and `MemWrite` (R31, R32), the check of the caller's region (R37, R38), the response (R14), taking
`IllegalCommand` and the host's taking of a response, which is all the return there is (R141, R147, R149). -/

namespace Sys2Proof.Machine

/-! ### The buffer memory -/

/-- One byte read of the buffer port (R30): the listed byte, or what an unlisted address reads as (log 4). -/
def Memory.read : Memory → Nat → Byte
  | [], _ => Config.unlistedByte
  | (a, b) :: m, x => if a = x then b else Memory.read m x

/-- The memory without an entry for `x`. -/
def Memory.erase (m : Memory) (x : Nat) : Memory := m.filter (fun c => c.1 != x)

/-- The memory with an entry for `x`, before the first entry of a higher address. -/
def Memory.insertCell : Memory → Nat → Byte → Memory
  | [], x, v => [(x, v)]
  | (a, b) :: m, x, v => if x < a then (x, v) :: (a, b) :: m else (a, b) :: Memory.insertCell m x v

/-- One byte write of the buffer port (R30). Writing what an unlisted address reads as removes the entry, so that equal
memories are equal data. -/
def Memory.write (m : Memory) (x : Nat) (v : Byte) : Memory :=
  if v = Config.unlistedByte then m.erase x else Memory.insertCell (m.erase x) x v

/-- Every listed address is at least `lo`, addresses rise strictly, and no entry is what an unlisted address reads as. -/
def Memory.wfAbove : Nat → Memory → Bool
  | _, [] => true
  | lo, (a, b) :: m => decide (lo ≤ a) && b != Config.unlistedByte && Memory.wfAbove (a + 1) m

/-- The canonical form of memory. -/
def Memory.wf (m : Memory) : Bool := Memory.wfAbove 0 m

/-- Every listed address is one of the `2 ^ aw` addresses of the buffer space (R19). -/
def Memory.within (aw : Nat) (m : Memory) : Bool := m.all (fun c => decide (c.1 < 2 ^ aw))

/-- `MemRead(addr, k)`: the `k` bytes at `addr`, `addr + 1`, …, in that order (R31). -/
def Memory.readBytes (m : Memory) : Nat → Nat → List Byte
  | _, 0 => []
  | addr, k + 1 => m.read addr :: Memory.readBytes m (addr + 1) k

/-- `MemWrite(addr, k, b)`: the bytes `b[0]`, `b[1]`, … to `addr`, `addr + 1`, …, in that order (R32). -/
def Memory.writeBytes (m : Memory) : Nat → List Byte → Memory
  | _, [] => m
  | addr, b :: bs => Memory.writeBytes (m.write addr b) (addr + 1) bs

/-! ### The caller's region -/

/-- The range holds the address. -/
def rangeContains (r : AddrRange) (a : Nat) : Bool := decide (r.base ≤ a) && decide (a < r.base + r.size)

/-- The address lies in `REGION` (R37) and is not above `2 ^ AW - 1` (R38). -/
def State.mayAccess (s : State) (a : Nat) : Bool :=
  decide (a < 2 ^ s.cfg.aw) && s.cfg.region.any (fun r => rangeContains r a)

/-- The lowest of the `k` addresses `a`, `a + 1`, … that the command may not access (R146). Addresses are unbounded
integers: nothing wraps (R38). -/
def State.firstOffending (s : State) : Nat → Nat → Option Nat
  | 0, _ => none
  | k + 1, a => if s.mayAccess a then s.firstOffending k (a + 1) else some a

/-- Runs a command that requires the `k` bytes at `cmd.ptr`: `BufferPrecondition` before its first access when one of them
may not be accessed (R37, R142), and the command's effect otherwise. -/
def State.withBuffer (s : State) (k : Nat) (effect : State → State) : Result :=
  match s.firstOffending k s.cmd.ptr with
  | some a => .fault (.bufferPrecondition s.cmd a)
  | none => .next (effect s)

/-- One byte of an abandoned command's write set becomes a free value (U9; log 9). A byte the command may not access is no
byte of a region the host has given it, and stays as it is. -/
def State.spoilByte (s : State) (a : Nat) : State :=
  { s with
      mem := if s.mayAccess a then s.mem.write a (Config.abandonedByte s.freeCount (s.mem.read a)) else s.mem
      freeCount := s.freeCount + 1 }

/-- The `k` bytes from `a` on become free values, one of their own each (U9; log 9). -/
def State.spoil : Nat → Nat → State → State
  | 0, _, s => s
  | k + 1, a, s => State.spoil k (a + 1) (s.spoilByte a)

/-! ### The ports -/

/-- The command word on the latched command port: what the unit decodes (R12, R66). -/
def State.latchedWord (s : State) : Byte := s.cmd.cw

/-- The end of a command: the response is presented and the unit is idle (R12, R14). Nothing else changes: U10 lets the
latched command and the working registers hold any value from here on, and the model keeps the command as latched
(log 21) and the registers as the command left them (log 17) until the next issue or reset. DESIGN CHOICE. -/
def State.respond (s : State) (val : Word64) (cnt : Byte) (err : Bool) : State :=
  { s with busy := false, rsp := some { val := val, cnt := cnt, err := err } }

/-- Taking `IllegalCommand`: the response of R141 and nothing else (R147), and the sticky fault mark of the run (R149;
log 6). -/
def State.raiseIllegalCommand (s : State) : State :=
  { s.respond 0 0 true with faultMark := true }

/-- The host takes the pending response (R12): the command last issued is answered (R156; log 22). Nothing is restored
after an `IllegalCommand` (R149), and the fault mark stays. -/
def State.takeResponse (s : State) (r : Response) : State :=
  { s with rsp := none, taken := s.taken ++ [r], unanswered := false }

end Sys2Proof.Machine
end

