-- ==== Sys2Proof/Machine/Operands.lean ====
section
/-! DEFINITION. Operand assembly (30_encoding.md R55), the sizes (R3, R7), the byte order functions of 00_scope.md section
5.2 and the byte-reversal component (40_byte_reversal.md R70). A W-bit value stands in 64 bits with zeros above W,
which is its form on `rsp.val` (R6). -/

namespace Sys2Proof.Machine

/-! ### Sizes and operands -/

/-- n, the bytes of a value (R3, R50). -/
def sizeBytes : Size → Nat
  | .w8 => 1
  | .w16 => 2
  | .w32 => 4
  | .w64 => 8

/-- W = 8n, the bits of a value (R3, R55). -/
def sizeBits (sz : Size) : Nat := 8 * sizeBytes sz

/-- `maxlen(W) = ceil(W / 7)`: 2, 3, 5, 10 bytes for W = 8, 16, 32, 64 (R7). -/
def maxlen (sz : Size) : Nat := (sizeBits sz + 6) / 7

/-- `trunc_W` and `zext_64`: the low W bits of a value, zeros above them (00_scope.md section 5.1). -/
def truncW (sz : Size) (v : Word64) : Word64 := (v.setWidth (sizeBits sz)).setWidth 64

/-- The source value `cmd.val[W-1:0]`; the bits above W are ignored (R6, R55). -/
def State.source (s : State) (sz : Size) : Word64 := truncW sz s.cmd.val

/-- The byte count of a decode, unsigned (R55). -/
def State.count (s : State) : Nat := s.cmd.len.toNat

/-! ### Byte order -/

/-- Byte `k` of a value: `v[8k+7 : 8k]` (00_scope.md section 5.1). -/
def byteOf (v : Word64) (k : Nat) : Byte := v.extractLsb' (8 * k) 8

/-- `bytes_LE(v, n)`: least significant byte first (00_scope.md section 5.2). -/
def bytesLE (v : Word64) (n : Nat) : List Byte := (List.range n).map (fun i => byteOf v i)

/-- `bytes_BE(v, n)`: most significant byte first (00_scope.md section 5.2). -/
def bytesBE (v : Word64) (n : Nat) : List Byte := (List.range n).map (fun i => byteOf v (n - 1 - i))

/-- `val_LE(b, n)`: byte `i` counts `2^(8i)` (00_scope.md section 5.2). -/
def valLE : List Byte → Word64
  | [] => 0
  | b :: bs => b.setWidth 64 ||| (valLE bs <<< 8)

/-- `val_BE(b, n)`: the first byte is the most significant (00_scope.md section 5.2). -/
def valBE (bs : List Byte) : Word64 := bs.foldl (fun v b => (v <<< 8) ||| b.setWidth 64) 0

/-- `native_bytes(v, n)` (00_scope.md section 5.2). -/
def nativeBytes (native : Endian) (v : Word64) (n : Nat) : List Byte :=
  match native with
  | .le => bytesLE v n
  | .be => bytesBE v n

/-- `native_val(b, n)` (00_scope.md section 5.2). -/
def nativeVal (native : Endian) (bs : List Byte) : Word64 :=
  match native with
  | .le => valLE bs
  | .be => valBE bs

/-- The byte-reversal component (R70): the value as its native sequence of bytes, that sequence reversed, read back. -/
def revBytes (native : Endian) (v : Word64) (n : Nat) : Word64 :=
  nativeVal native (nativeBytes native v n).reverse

/-- `swap = (E != NATIVE) and (n > 1)` (R80). -/
def swaps (native : Endian) (e : Endian) (sz : Size) : Bool := decide (e ≠ native) && decide (1 < sizeBytes sz)

/-- The byte-reversal component where it is switched into the path of an `ext` or `app` (R80, R81). -/
def swapIf (native : Endian) (e : Endian) (sz : Size) (v : Word64) : Word64 :=
  if swaps native e sz then revBytes native v (sizeBytes sz) else v

end Sys2Proof.Machine
end

