-- ==== Sys2Proof/Machine/Flags.lean ====
section
/-! DEFINITION. The unit has no condition code and sets no flag (10_state.md R16). The only flags of this hardware are
bits of buffer data: the continuation bit and the termination flag of a variable-length byte (30_encoding.md R60). They
are computed and read here, with the 7-bit group they stand beside. -/

namespace Sys2Proof.Machine

/-- A byte with the continuation flag set: `0x80 | rem[6:0]` (R110). -/
def continuationByte (rem : Word64) : Byte := 0x80#8 ||| (rem.extractLsb' 0 7).setWidth 8

/-- The last byte, `rem[7:0]`: with `rem <= 127` its bit 7 is the termination flag 0 (R110). -/
def finalByte (rem : Word64) : Byte := rem.extractLsb' 0 8

/-- More than 7 significant bits remain: `rem > 127`, unsigned (R110). -/
def moreRemains (rem : Word64) : Bool := decide (127 < rem.toNat)

/-- Bit 7 of a byte read: more bytes follow (R60). -/
def continues (b : Byte) : Bool := b.getLsbD 7

/-- The group a byte carries, `bt[6:0]` (R60). -/
def group (b : Byte) : BitVec 7 := b.extractLsb' 0 7

/-- `trunc_W(zext(bt[6:0]) << (7 * idx))`: the shift is on unbounded integers, then the low W bits are kept (R125, R129). -/
def placedGroup (sz : Size) (b : Byte) (idx : Nat) : Word64 :=
  BitVec.ofNat 64 (((group b).toNat <<< (7 * idx)) % 2 ^ sizeBits sz)

end Sys2Proof.Machine
end

