-- ==== Sys2Proof/Machine/ByteReversal.lean ====
section
/-! DEFINITION. The byte reversal commands `rev.W` (40_byte_reversal.md). -/

namespace Sys2Proof.Machine

/-- The common body of the four `rev` commands (R78). It reads and writes no buffer byte and raises no fault (R76). -/
def State.reverse (s : State) (sz : Size) : Result :=
  let t := revBytes s.cfg.native (s.source sz) (sizeBytes sz)
  .next ({ s with t := t }.respond t 0 false)

/-- `rev.8 val` (R72). -/
def execRev8 (s : State) : Result := s.reverse .w8

/-- `rev.16 val` (R73). -/
def execRev16 (s : State) : Result := s.reverse .w16

/-- `rev.32 val` (R74). -/
def execRev32 (s : State) : Result := s.reverse .w32

/-- `rev.64 val` (R75). -/
def execRev64 (s : State) : Result := s.reverse .w64

end Sys2Proof.Machine
end

