-- ==== Sys2Proof/Machine/FixedWidth.lean ====
section
/-! DEFINITION. The fixed-width extract and append commands `ext.E.W` and `app.E.W` (41_fixed_width.md): the datapath of
R80 and R81, with the byte-reversal component switched into the path when the endianness tag differs from `NATIVE`. -/

namespace Sys2Proof.Machine

/-- The effect of `ext.E.W` on bytes that may be read (R80). -/
def State.extractEffect (e : Endian) (sz : Size) (s : State) : State :=
  let b := s.mem.readBytes s.cmd.ptr (sizeBytes sz)
  let t := swapIf s.cfg.native e sz (nativeVal s.cfg.native b)
  { s with t := t }.respond t (BitVec.ofNat 8 (sizeBytes sz)) false

/-- The bytes `app.E.W` writes, lowest address first (R81). -/
def State.appendedBytes (s : State) (e : Endian) (sz : Size) : List Byte :=
  nativeBytes s.cfg.native (swapIf s.cfg.native e sz (s.source sz)) (sizeBytes sz)

/-- The effect of `app.E.W` on bytes that may be written (R81). -/
def State.appendEffect (e : Endian) (sz : Size) (s : State) : State :=
  { s with
      t := swapIf s.cfg.native e sz (s.source sz)
      mem := s.mem.writeBytes s.cmd.ptr (s.appendedBytes e sz) }.respond 0 (BitVec.ofNat 8 (sizeBytes sz)) false

/-- `ext.E.W [ptr]` (R80): it requires n bytes at `cmd.ptr` (R37, R100). -/
def State.extract (s : State) (e : Endian) (sz : Size) : Result :=
  s.withBuffer (sizeBytes sz) (State.extractEffect e sz)

/-- `app.E.W [ptr], val` (R81): it requires n bytes at `cmd.ptr` (R37, R100). -/
def State.append (s : State) (e : Endian) (sz : Size) : Result :=
  s.withBuffer (sizeBytes sz) (State.appendEffect e sz)

/-- `ext.le.8 [ptr]` (R84). -/
def execExtLe8 (s : State) : Result := s.extract .le .w8

/-- `ext.le.16 [ptr]` (R85). -/
def execExtLe16 (s : State) : Result := s.extract .le .w16

/-- `ext.le.32 [ptr]` (R86). -/
def execExtLe32 (s : State) : Result := s.extract .le .w32

/-- `ext.le.64 [ptr]` (R87). -/
def execExtLe64 (s : State) : Result := s.extract .le .w64

/-- `ext.be.8 [ptr]` (R88). -/
def execExtBe8 (s : State) : Result := s.extract .be .w8

/-- `ext.be.16 [ptr]` (R89). -/
def execExtBe16 (s : State) : Result := s.extract .be .w16

/-- `ext.be.32 [ptr]` (R90). -/
def execExtBe32 (s : State) : Result := s.extract .be .w32

/-- `ext.be.64 [ptr]` (R91). -/
def execExtBe64 (s : State) : Result := s.extract .be .w64

/-- `app.le.8 [ptr], val` (R92). -/
def execAppLe8 (s : State) : Result := s.append .le .w8

/-- `app.le.16 [ptr], val` (R93). -/
def execAppLe16 (s : State) : Result := s.append .le .w16

/-- `app.le.32 [ptr], val` (R94). -/
def execAppLe32 (s : State) : Result := s.append .le .w32

/-- `app.le.64 [ptr], val` (R95). -/
def execAppLe64 (s : State) : Result := s.append .le .w64

/-- `app.be.8 [ptr], val` (R96). -/
def execAppBe8 (s : State) : Result := s.append .be .w8

/-- `app.be.16 [ptr], val` (R97). -/
def execAppBe16 (s : State) : Result := s.append .be .w16

/-- `app.be.32 [ptr], val` (R98). -/
def execAppBe32 (s : State) : Result := s.append .be .w32

/-- `app.be.64 [ptr], val` (R99). -/
def execAppBe64 (s : State) : Result := s.append .be .w64

end Sys2Proof.Machine
end

