-- ==== Sys2Proof/Machine/VarintEncode.lean ====
section
/-! DEFINITION. The variable-length integer encode commands `venc.W` (42_varint_encode.md R110), and the step view of one
buffer access per step that R120 gives beside them. -/

namespace Sys2Proof.Machine

/-- The registers of a `venc` before its loop: `rem <- cmd.val[W-1:0]`, `idx <- 0` (R110). -/
def State.vencStart (s : State) (sz : Size) : State := { s with rem := s.source sz, idx := 0 }

/-- One iteration of the loop of R110: a byte with the continuation flag, then `rem >> 7` and `idx + 1`. -/
def State.vencEmit (s : State) : State :=
  { s with
      mem := s.mem.write (s.cmd.ptr + s.idx.toNat) (continuationByte s.rem)
      rem := s.rem >>> 7
      idx := s.idx + 1 }

/-- The loop of R110, at most `fuel` iterations. `maxlen(W)` is more than it ever runs (R113). -/
def State.vencLoop : Nat → State → State
  | 0, s => s
  | fuel + 1, s => if moreRemains s.rem then State.vencLoop fuel s.vencEmit else s

/-- After the loop of R110: the final byte with the termination flag, `idx + 1`, and the response. -/
def State.vencFinish (s : State) : State :=
  let s' := { s with mem := s.mem.write (s.cmd.ptr + s.idx.toNat) (finalByte s.rem), idx := s.idx + 1 }
  s'.respond 0 s'.idx false

/-- `venc.W [ptr], val` (R110): it requires the worst case of `maxlen(W)` bytes at `cmd.ptr` (R37, R114). -/
def State.venc (s : State) (sz : Size) : Result :=
  s.withBuffer (maxlen sz) (fun u => (State.vencLoop (maxlen sz) (u.vencStart sz)).vencFinish)

/-- `venc.8 [ptr], val` (R115). -/
def execVenc8 (s : State) : Result := s.venc .w8

/-- `venc.16 [ptr], val` (R116). -/
def execVenc16 (s : State) : Result := s.venc .w16

/-- `venc.32 [ptr], val` (R117). -/
def execVenc32 (s : State) : Result := s.venc .w32

/-- `venc.64 [ptr], val` (R118). -/
def execVenc64 (s : State) : Result := s.venc .w64

/-! ### The step view (R120) -/

/-- A command in flight, one buffer access per step: still running, ended with its response, or stopped with a fault. -/
inductive InFlight where
  | running (s : State)
  | responded (s : State)
  | faulted (r : Fault)
  deriving DecidableEq, Repr

/-- One step of a `venc` in flight (R120). -/
def State.vencStep (s : State) : InFlight :=
  if moreRemains s.rem then .running s.vencEmit else .responded s.vencFinish

/-- At most `k` steps of a command in flight. -/
def InFlight.steps (step : State → InFlight) : Nat → InFlight → InFlight
  | k + 1, .running s => InFlight.steps step k (step s)
  | _, f => f

/-- The bytes a `venc` writes from `rem` on, lowest address first, by the loop of R110 (R39). -/
def vencBytes : Nat → Word64 → List Byte
  | 0, rem => [finalByte rem]
  | fuel + 1, rem =>
    if moreRemains rem then continuationByte rem :: vencBytes fuel (rem >>> 7) else [finalByte rem]

end Sys2Proof.Machine
end

