-- ==== Sys2Proof/Machine/VarintDecode.lean ====
section
/-! DEFINITION. The variable-length integer decode commands `vdec.W` (43_varint_decode.md R125), and the step view of one
buffer access per step that R136 gives beside them. -/

namespace Sys2Proof.Machine

/-- The registers of a `vdec` before its loop: `acc <- 0`, `idx <- 0` (R125). -/
def State.vdecStart (s : State) : State := { s with acc := 0, idx := 0 }

/-- The address of the next byte of a codec command, `cmd.ptr + idx` on unbounded integers (R38). -/
def State.codecAddr (s : State) : Nat := s.cmd.ptr + s.idx.toNat

/-- One iteration of the loop of R125, less its `break`: the byte into `bt`, its group into `acc`, `idx + 1`. -/
def State.vdecRead (s : State) (sz : Size) : State :=
  let bt := s.mem.read s.codecAddr
  { s with bt := bt, acc := s.acc ||| placedGroup sz bt s.idx.toNat, idx := s.idx + 1 }

/-- The loop of R125 with `left = cmd.len - idx` bytes still allowed. Each address is checked as it is about to be read
(R135); a byte with bit 7 clear ends the loop. -/
def State.vdecLoop (sz : Size) : Nat → State → Result
  | 0, s => .next s
  | left + 1, s =>
    if s.mayAccess s.codecAddr then
      if continues (s.mem.read s.codecAddr) then State.vdecLoop sz left (s.vdecRead sz) else .next (s.vdecRead sz)
    else .fault (.bufferPrecondition s.cmd s.codecAddr)

/-- After the loop of R125: the response. -/
def State.vdecFinish (s : State) : State := s.respond s.acc s.idx false

/-- `vdec.W [ptr], len` (R125). -/
def State.vdec (s : State) (sz : Size) : Result :=
  match State.vdecLoop sz s.count s.vdecStart with
  | .next s' => .next s'.vdecFinish
  | .fault r => .fault r
  | .refused r => .refused r

/-- `vdec.8 [ptr], len` (R131). -/
def execVdec8 (s : State) : Result := s.vdec .w8

/-- `vdec.16 [ptr], len` (R132). -/
def execVdec16 (s : State) : Result := s.vdec .w16

/-- `vdec.32 [ptr], len` (R133). -/
def execVdec32 (s : State) : Result := s.vdec .w32

/-- `vdec.64 [ptr], len` (R134). -/
def execVdec64 (s : State) : Result := s.vdec .w64

/-! ### The step view (R136) -/

/-- One step of a `vdec` in flight (R136). -/
def State.vdecStep (sz : Size) (s : State) : InFlight :=
  if s.idx = s.cmd.len then .responded s.vdecFinish
  else if s.mayAccess s.codecAddr then
    if continues (s.mem.read s.codecAddr) then .running (s.vdecRead sz) else .responded (s.vdecRead sz).vdecFinish
  else .faulted (.bufferPrecondition s.cmd s.codecAddr)

end Sys2Proof.Machine
end

