-- ==== Sys2Proof/Machine/Dispatch.lean ====
section
/-! DEFINITION. The dispatcher: one arm per command (30_encoding.md R56). -/

namespace Sys2Proof.Machine

/-- The meaning of a command on the latched operands (R12: execute and respond). -/
def exec (i : Instr) (s : State) : Host.Outcome State Fault Refusal :=
  match i with
  | .rev8 => Sys2Proof.Machine.execRev8 s
  | .rev16 => Sys2Proof.Machine.execRev16 s
  | .rev32 => Sys2Proof.Machine.execRev32 s
  | .rev64 => Sys2Proof.Machine.execRev64 s
  | .extLe8 => Sys2Proof.Machine.execExtLe8 s
  | .extLe16 => Sys2Proof.Machine.execExtLe16 s
  | .extLe32 => Sys2Proof.Machine.execExtLe32 s
  | .extLe64 => Sys2Proof.Machine.execExtLe64 s
  | .extBe8 => Sys2Proof.Machine.execExtBe8 s
  | .extBe16 => Sys2Proof.Machine.execExtBe16 s
  | .extBe32 => Sys2Proof.Machine.execExtBe32 s
  | .extBe64 => Sys2Proof.Machine.execExtBe64 s
  | .appLe8 => Sys2Proof.Machine.execAppLe8 s
  | .appLe16 => Sys2Proof.Machine.execAppLe16 s
  | .appLe32 => Sys2Proof.Machine.execAppLe32 s
  | .appLe64 => Sys2Proof.Machine.execAppLe64 s
  | .appBe8 => Sys2Proof.Machine.execAppBe8 s
  | .appBe16 => Sys2Proof.Machine.execAppBe16 s
  | .appBe32 => Sys2Proof.Machine.execAppBe32 s
  | .appBe64 => Sys2Proof.Machine.execAppBe64 s
  | .venc8 => Sys2Proof.Machine.execVenc8 s
  | .venc16 => Sys2Proof.Machine.execVenc16 s
  | .venc32 => Sys2Proof.Machine.execVenc32 s
  | .venc64 => Sys2Proof.Machine.execVenc64 s
  | .vdec8 => Sys2Proof.Machine.execVdec8 s
  | .vdec16 => Sys2Proof.Machine.execVdec16 s
  | .vdec32 => Sys2Proof.Machine.execVdec32 s
  | .vdec64 => Sys2Proof.Machine.execVdec64 s

end Sys2Proof.Machine
end

