-- ==== Sys2Proof/Machine/Protocol.lean ====
section
/-! DEFINITION. The command protocol between the host and the unit (10_state.md R12), the host's own stores (R19) and reset
(70_reset_and_hazards.md R160 to R163). The host stands in State as the list of what it does next; it keeps the
handshake rules: it presents a command only to an idle unit and takes every response (R12, R170; log 5). -/

namespace Sys2Proof.Machine

/-! ### The host's acts -/

/-- The host's list less its first event. -/
def State.dropEvent (s : State) : State := { s with host := s.host.tail }

/-- Issue: the unit latches the four fields and is busy (R12). The pointer port has `AW` wires, so the low `AW` bits are
latched (R5, R55; log 15). The command is unanswered until its response is taken (log 22). -/
def State.issue (s : State) (c : Command) : State :=
  { s with cmd := { c with ptr := c.ptr % 2 ^ s.cfg.aw }, busy := true, unanswered := true }

/-- The host stores a byte into its buffer (R19); an address above `2 ^ AW - 1` does not exist (log 14). -/
def State.hostStore (s : State) (addr : Nat) (b : Byte) : Result :=
  if addr < 2 ^ s.cfg.aw then .next { s with mem := s.mem.write addr b } else .fault (.outsideBufferSpace addr)

/-- The unit's reset: not busy, nothing latched, no response pending; the buffer is not touched (R22, R160, R161). The
latched fields and the working registers are unspecified there and take the values of `State.reset` (log 3, log 10).
A command whose response the reset has cut off stays unanswered (log 22). -/
def State.resetUnit (s : State) : State :=
  { s with
      busy := false
      cmd := Command.afterReset
      t := 0
      rem := 0
      acc := 0
      idx := 0
      bt := 0
      rsp := none }

/-! ### A command abandoned by reset -/

/-- The bytes a command writes, in the order of R39, from `cmd.ptr` on. -/
def State.commandWrites (s : State) (i : Instr) : List Byte :=
  match i.shape with
  | .rev _ => []
  | .ext _ _ => []
  | .app e sz => s.appendedBytes e sz
  | .venc sz => vencBytes (maxlen sz) (s.source sz)
  | .vdec _ => []

/-- How many bytes from `cmd.ptr` on a command could write: its write set, the addresses R37 gives `app` and `venc`. -/
def writeSetBytes (i : Instr) : Nat :=
  match i.shape with
  | .rev _ => 0
  | .ext _ _ => 0
  | .app _ sz => sizeBytes sz
  | .venc sz => maxlen sz
  | .vdec _ => 0

/-- The fault a command has raised by the time it has begun `k` byte accesses: none before the first; the whole
requirement of `ext`, `app`, `venc` is checked before the first (R100, R114); `vdec` checks each read (R135). -/
def State.faultWithin (s : State) (i : Instr) (k : Nat) : Option Fault :=
  if k = 0 then none
  else
    match i.shape with
    | .rev _ => none
    | .ext _ sz => (s.firstOffending (sizeBytes sz) s.cmd.ptr).map (.bufferPrecondition s.cmd)
    | .app _ sz => (s.firstOffending (sizeBytes sz) s.cmd.ptr).map (.bufferPrecondition s.cmd)
    | .venc sz => (s.firstOffending (maxlen sz) s.cmd.ptr).map (.bufferPrecondition s.cmd)
    | .vdec sz =>
      match State.vdecLoop sz (min k s.count) s.vdecStart with
      | .fault r => some r
      | .next _ => none
      | .refused _ => none

/-- Reset during a command (R162): the first `k` of its byte writes have been performed, the others never happen, and no
response is ever presented. `k` is the host's: any number of accesses may have been performed. Every byte of the write
set is undefined from then on (U9): a free value, which may be what the performed writes left (log 9). A reserved word
performs no access and writes nothing (R141). -/
def State.abandon (s : State) (k : Nat) : Result :=
  match decode s.latchedWord with
  | .error _ => .next s.resetUnit
  | .ok i =>
    match s.faultWithin i k with
    | some r => .fault r
    | none =>
      .next (State.spoil (writeSetBytes i) s.cmd.ptr
        { s with mem := s.mem.writeBytes s.cmd.ptr ((s.commandWrites i).take k) }).resetUnit

/-! ### Whose turn it is -/

/-- What happens in the next step. -/
inductive Turn where
  /-- the unit executes the latched command and responds -/
  | execute
  /-- reset lands during the command in flight, after `k` byte accesses -/
  | abandon (k : Nat)
  /-- reset lands with no command in flight -/
  | reset
  /-- the host takes the pending response -/
  | take (r : Response)
  /-- the host issues a command -/
  | issue (c : Command)
  /-- the host stores a byte -/
  | store (addr : Nat) (b : Byte)
  /-- the unit is idle and the host does nothing -/
  | wait
  deriving DecidableEq, Repr

/-- The order of the protocol (R12): a command in flight runs to its response unless reset lands in it; a pending response
is taken before anything else the host does, unless reset lands there; an idle unit waits for the host (R153). -/
def State.turn (s : State) : Turn :=
  if s.busy then
    match s.host with
    | .reset (.inFlight k) :: _ => .abandon k
    | _ => .execute
  else
    match s.rsp, s.host with
    | some r, [] => .take r
    | some _, .reset (.inFlight _) :: _ => .reset
    | some _, .reset .responsePending :: _ => .reset
    | some r, .reset .idle :: _ => .take r
    | some r, .issue _ :: _ => .take r
    | some r, .store _ _ :: _ => .take r
    | none, [] => .wait
    | none, .reset _ :: _ => .reset
    | none, .issue c :: _ => .issue c
    | none, .store a b :: _ => .store a b

/-- A host event that is an assertion of reset. -/
def HostEvent.isReset : HostEvent → Bool
  | .reset _ => true
  | .issue _ => false
  | .store _ _ => false

/-- A command word latched as a command in flight. The operand ports stay as they are. A response still pending is gone
(R12: a command is in flight only when none is), and so are resets the host was about to assert, which would land in
the command (log 11). The command counts as issued (log 22). -/
def State.latchWord (s : State) (cw : Byte) : State :=
  { s with
      cmd := { s.cmd with cw := cw }
      busy := true
      unanswered := true
      rsp := none
      host := s.host.dropWhile HostEvent.isReset }

end Sys2Proof.Machine
end

