-- ==== Sys2Proof/Machine/Step.lean ====
section
/-! DEFINITION. One step of the unit and its host. A command is one atomic step from its decoding to its response, as the host
sees it (10_state.md R12; log 5). -/

namespace Sys2Proof.Machine

/-- The unit's turn: the command word is decoded before anything else (R146). -/
def State.executeLatched (s : State) : Host.Outcome State Fault Refusal :=
  match decode s.latchedWord with
  | .ok i => exec i s
  | .error _ => .next s.raiseIllegalCommand

/-- One step (R12). -/
def step (s : State) : Host.Outcome State Fault Refusal :=
  match s.turn with
  | .execute => s.executeLatched
  | .abandon k => s.dropEvent.abandon k
  | .reset => .next s.dropEvent.resetUnit
  | .take r => .next (s.takeResponse r)
  | .issue c => .next (s.dropEvent.issue c)
  | .store a b => s.dropEvent.hostStore a b
  | .wait => .next s

/-- The state in which the very next step decodes and runs the command word `w` (log 11). Every command has 8 bits (R59). -/
def State.withFetchWord (s : State) (nbits w : Nat) : State := s.latchWord (BitVec.ofNat 8 (w % 2 ^ nbits))

end Sys2Proof.Machine
end

