-- ==== Sys2Proof/Safety.lean ====
section
/-! DEFINITION. The terms claims use: a good end of a run (60_exceptions.md R156), the addresses a command may touch
(20_memory.md R37, R45), what a command's response depends on (30_encoding.md R51, 10_state.md R21), the closed forms of
the variable-length format (30_encoding.md R60, R61; 43_varint_decode.md R126), and the invariant of the machine. -/

namespace Sys2Proof.Machine

/-! ### A run -/

/-- The unit is idle and no response is pending (R12). -/
def State.idle (s : State) : Bool := !s.busy && s.rsp.isNone

/-- A good end of a run (R156): the host issues nothing more, the response to the last command has been taken, and no
command raised a fault. A last command that reset abandoned, or whose response reset dropped, has no response to take,
so the run has no end (log 22). R156 says nothing of what the host does after that response; DESIGN CHOICE (log 23): a good
end waits until the host's whole list is used up, its own stores and resets included. -/
def State.goodEnd (s : State) : Bool := s.idle && s.host.isEmpty && !s.unanswered && !s.faultMark

/-- The invariant of the machine: memory in its canonical form and inside the buffer space (R19), a pointer of `AW` bits
latched (R13), no response pending while a command is in flight (R12), and a command in flight or a response pending only
while a command is unanswered (R156; log 22). -/
def State.invariant (s : State) : Bool :=
  s.mem.wf && s.mem.within s.cfg.aw && decide (s.cmd.ptr < 2 ^ s.cfg.aw) && (!s.busy || s.rsp.isNone) &&
    (s.idle || s.unanswered)

/-! ### The addresses of a command -/

/-- The `k` addresses from `a` on may all be accessed (R37, R38). -/
abbrev State.mayAccessRange (s : State) (a k : Nat) : Prop := ∀ j, j < k → s.mayAccess (a + j) = true

/-- The command stores to the buffer (R39). -/
def storesTo (i : Instr) : Bool :=
  match i.shape with
  | .rev _ => false
  | .ext _ _ => false
  | .app _ _ => true
  | .venc _ => true
  | .vdec _ => false

/-- The command loads from the buffer (R39). -/
def loadsFrom (i : Instr) : Bool :=
  match i.shape with
  | .rev _ => false
  | .ext _ _ => true
  | .app _ _ => false
  | .venc _ => false
  | .vdec _ => true

/-- How many bytes from `cmd.ptr` on a command may touch: the table of R37, and for `vdec` all of `cmd.len`, as an agent
that does not know the data must take it (R45). -/
def mayTouchBytes (i : Instr) (len : Byte) : Nat :=
  match i.shape with
  | .rev _ => 0
  | .ext _ sz => sizeBytes sz
  | .app _ sz => sizeBytes sz
  | .venc sz => maxlen sz
  | .vdec _ => len.toNat

/-- The command may touch the address (R37, R45). -/
def State.mayTouch (s : State) (i : Instr) (a : Nat) : Prop :=
  s.cmd.ptr ≤ a ∧ a < s.cmd.ptr + mayTouchBytes i s.cmd.len

/-- The command may write the address (R37, R45). -/
def State.mayStore (s : State) (i : Instr) (a : Nat) : Prop := storesTo i = true ∧ s.mayTouch i a

/-- Two commands of two units do not overlap: neither may write a byte the other may touch (R45, R154). -/
def nonOverlapping (s : State) (i : Instr) (u : State) (j : Instr) : Prop :=
  ∀ a, ¬(s.mayStore i a ∧ u.mayTouch j a) ∧ ¬(s.mayTouch i a ∧ u.mayStore j a)

/-- Two states agree on the operands the command uses (the table of R51) and on where it may access (R37). Registers, the
response, `NATIVE` and the operands the command ignores may differ. -/
def sameOperands (i : Instr) (s u : State) : Prop :=
  s.cfg.aw = u.cfg.aw ∧ s.cfg.region = u.cfg.region ∧
  match i.shape with
  | .rev sz => s.source sz = u.source sz
  | .ext _ _ => s.cmd.ptr = u.cmd.ptr
  | .app _ sz => s.cmd.ptr = u.cmd.ptr ∧ s.source sz = u.source sz
  | .venc sz => s.cmd.ptr = u.cmd.ptr ∧ s.source sz = u.source sz
  | .vdec _ => s.cmd.ptr = u.cmd.ptr ∧ s.cmd.len = u.cmd.len

/-- What no command changes: the parameters, the latched command (R13), the host's list, and the model's record of the run
(the responses taken, the fault mark, the unanswered command, the count of free values). -/
def State.sameSurroundings (s t : State) : Prop :=
  t.cfg = s.cfg ∧ t.cmd = s.cmd ∧ t.host = s.host ∧ t.taken = s.taken ∧ t.faultMark = s.faultMark ∧
  t.unanswered = s.unanswered ∧ t.freeCount = s.freeCount

/-! ### The variable-length format -/

/-- `bit_length(v)` (00_scope.md section 5.1). -/
def bitLength (v : Word64) : Nat := if v = 0 then 0 else Nat.log2 v.toNat + 1

/-- `ceil(max(1, bit_length(v)) / 7)` (R112). -/
def encodedLength (v : Word64) : Nat := (max 1 (bitLength v) + 6) / 7

/-- Group `i` of a value, `v[7i+6 : 7i]`, zeros above bit 63 (R60). -/
def groupOf (v : Word64) (i : Nat) : BitVec 7 := v.extractLsb' (7 * i) 7

/-- The byte at `cmd.ptr + j`, `b[j]` of the rules. -/
def State.bufferByte (s : State) (j : Nat) : Byte := s.mem.read (s.cmd.ptr + j)

/-- `k` is the number of bytes a decode reads (R126): every byte before the last has its continuation bit set, and the last
has it clear unless `cmd.len` bytes have been read. -/
def State.decodesBytes (s : State) (k : Nat) : Prop :=
  k ≤ s.cmd.len.toNat ∧ (∀ j, j + 1 < k → continues (s.bufferByte j) = true) ∧
  (k < s.cmd.len.toNat → 0 < k ∧ continues (s.bufferByte (k - 1)) = false)

/-- `k` is the number of bytes from `cmd.ptr` on that a command requires, the table of R37: for `vdec` the bytes it reads. -/
def State.requiresBytes (s : State) (i : Instr) (k : Nat) : Prop :=
  match i.shape with
  | .rev _ => k = 0
  | .ext _ sz => k = sizeBytes sz
  | .app _ sz => k = sizeBytes sz
  | .venc sz => k = maxlen sz
  | .vdec _ => s.decodesBytes k

/-- `zext_64(trunc_W(sum over i = 0 .. k-1 of b[i][6:0] * 2^(7i)))` (R126). -/
def State.decodedValue (s : State) (sz : Size) (k : Nat) : Word64 :=
  BitVec.ofNat 64 (((Finset.range k).sum fun i => (group (s.bufferByte i)).toNat * 2 ^ (7 * i)) % 2 ^ sizeBits sz)

end Sys2Proof.Machine
end

