-- ==== Sys2Proof/Certificates/Slice0/Obligations.lean ====
section
/-! DEFINITION. The statements for the provers. Each formalises the rules of spec/ its docstring cites, or says that it is
the model's choice. -/

open Sys2Proof Sys2Proof.Machine

/-! ### Encoding -/

/-- R56: the 28 words of the table decode to the commands of their rows, each with the operation, the size and the byte
order its row gives, and every other word is reserved. -/
def Obligations.DecoderAcceptsExactlyTheTable : Prop :=
  (∀ p ∈ ([(0x00, .rev8, .rev .w8), (0x08, .rev16, .rev .w16),
      (0x10, .rev32, .rev .w32), (0x18, .rev64, .rev .w64),
      (0x01, .extLe8, .ext .le .w8), (0x09, .extLe16, .ext .le .w16),
      (0x11, .extLe32, .ext .le .w32), (0x19, .extLe64, .ext .le .w64),
      (0x21, .extBe8, .ext .be .w8), (0x29, .extBe16, .ext .be .w16),
      (0x31, .extBe32, .ext .be .w32), (0x39, .extBe64, .ext .be .w64),
      (0x02, .appLe8, .app .le .w8), (0x0A, .appLe16, .app .le .w16),
      (0x12, .appLe32, .app .le .w32), (0x1A, .appLe64, .app .le .w64),
      (0x22, .appBe8, .app .be .w8), (0x2A, .appBe16, .app .be .w16),
      (0x32, .appBe32, .app .be .w32), (0x3A, .appBe64, .app .be .w64),
      (0x03, .venc8, .venc .w8), (0x0B, .venc16, .venc .w16),
      (0x13, .venc32, .venc .w32), (0x1B, .venc64, .venc .w64),
      (0x04, .vdec8, .vdec .w8), (0x0C, .vdec16, .vdec .w16),
      (0x14, .vdec32, .vdec .w32), (0x1C, .vdec64, .vdec .w64)] :
      List (Byte × Instr × Shape)), decode p.1 = .ok p.2.1 ∧ p.2.1.shape = p.2.2) ∧
  (sizeBytes .w8 = 1 ∧ sizeBytes .w16 = 2 ∧ sizeBytes .w32 = 4 ∧ sizeBytes .w64 = 8) ∧
  ∀ cw : Byte, legalWord cw = true ↔ ∃ i, decode cw = .ok i

/-- R66: the three checks of the decoder in their order, and what a word that passes them is; two different legal words
are two different commands. -/
def Obligations.DecoderFollowsTheFieldChecks : Prop :=
  (∀ cw : Byte,
    (cw.extractLsb' 6 2 ≠ 0#2 → decode cw = .error .highBitsSet) ∧
    (cw.extractLsb' 6 2 = 0#2 → 4 < (cw.extractLsb' 0 3).toNat → decode cw = .error .reservedOperation) ∧
    (cw.extractLsb' 6 2 = 0#2 → (cw.extractLsb' 0 3).toNat ≤ 4 → cw.getLsbD 5 = true →
      (cw.extractLsb' 0 3).toNat ≠ 1 → (cw.extractLsb' 0 3).toNat ≠ 2 → decode cw = .error .tagOnUntaggedCommand) ∧
    (cw.extractLsb' 6 2 = 0#2 → (cw.extractLsb' 0 3).toNat ≤ 4 →
      (cw.getLsbD 5 = true → (cw.extractLsb' 0 3).toNat = 1 ∨ (cw.extractLsb' 0 3).toNat = 2) →
      ∃ i, decode cw = .ok i ∧
        i.shape = shapeOfFields (cw.extractLsb' 0 3) (cw.extractLsb' 5 1) (cw.extractLsb' 3 2))) ∧
  ∀ a b i, decode a = .ok i → decode b = .ok i → a = b

/-- R59, R66: decoding the word of a command gives the command back, and a legal word is the word of what it decodes to. -/
def Obligations.DecodeAndEncodeAgree : Prop :=
  (∀ i : Instr, decode (encode i) = .ok i) ∧ ∀ cw i, decode cw = .ok i → encode i = cw

/-- R57: of the 256 words 192 are reserved by their high bits, 24 by their operation and 12 by their tag; 28 are legal. -/
def Obligations.ReservedWordsCountByClass : Prop :=
  let count (f : Byte → Bool) := ((List.range 256).filter fun w => f (BitVec.ofNat 8 w)).length
  count (fun cw => decide (decode cw = .error .highBitsSet)) = 192 ∧
  count (fun cw => decide (decode cw = .error .reservedOperation)) = 24 ∧
  count (fun cw => decide (decode cw = .error .tagOnUntaggedCommand)) = 12 ∧
  count legalWord = 28

/-! ### Byte reversal -/

namespace Sys2Proof.Claims

/-- The command `i` of word `cw` completes in every state: `t` and `rsp.val` hold the reversed value, `rsp.cnt` = 0,
`rsp.err` = 0, and nothing else changes. That `t` holds it after the response (log 17), and that the latched command is
unchanged there (log 21), is the model's choice. -/
def ReverseCommand (i : Instr) (cw : Byte) (reversed : Word64 → Word64) : Prop :=
  decode cw = .ok i ∧
  ∀ s : State, exec i s = .next
    { s with
        t := reversed s.cmd.val
        busy := false
        rsp := some { val := reversed s.cmd.val, cnt := 0, err := false } }

end Sys2Proof.Claims

/-- R72 to R75: the four `rev` commands, with the value written out byte by byte as the rules do. The clauses on `t`
(log 17) and on the latched command (log 21) after the response are the model's choice. -/
def Obligations.RevReturnsTheReversedBytes : Prop :=
  Claims.ReverseCommand .rev8 0x00 (fun v => (v.extractLsb' 0 8).setWidth 64) ∧
  Claims.ReverseCommand .rev16 0x08 (fun v => (v.extractLsb' 0 8 ++ v.extractLsb' 8 8).setWidth 64) ∧
  Claims.ReverseCommand .rev32 0x10
    (fun v => (v.extractLsb' 0 8 ++ v.extractLsb' 8 8 ++ v.extractLsb' 16 8 ++ v.extractLsb' 24 8).setWidth 64) ∧
  Claims.ReverseCommand .rev64 0x18
    (fun v => v.extractLsb' 0 8 ++ v.extractLsb' 8 8 ++ v.extractLsb' 16 8 ++ v.extractLsb' 24 8 ++
      v.extractLsb' 32 8 ++ v.extractLsb' 40 8 ++ v.extractLsb' 48 8 ++ v.extractLsb' 56 8)

/-- R70: for either value of `NATIVE`, the reversal of a W-bit value is the W-bit value whose byte `k` is byte `n-1-k` of
it. -/
def Obligations.ByteReversalExchangesBytes : Prop :=
  ∀ (native : Endian) (sz : Size) (v : Word64), truncW sz v = v →
    (∀ k, k < sizeBytes sz → byteOf (revBytes native v (sizeBytes sz)) k = byteOf v (sizeBytes sz - 1 - k)) ∧
    truncW sz (revBytes native v (sizeBytes sz)) = revBytes native v (sizeBytes sz)

/-- R71: the laws of `rev`: the identity at n = 1, the involution, the bijection on W-bit values, the palindromes, and
`bytes_BE(v, n) = bytes_LE(rev(v, n), n)`. -/
def Obligations.ByteReversalLaws : Prop :=
  ∀ (native : Endian) (sz : Size) (v : Word64), truncW sz v = v →
    (sizeBytes sz = 1 → revBytes native v (sizeBytes sz) = v) ∧
    revBytes native (revBytes native v (sizeBytes sz)) (sizeBytes sz) = v ∧
    (∀ w, truncW sz w = w → revBytes native w (sizeBytes sz) = revBytes native v (sizeBytes sz) → w = v) ∧
    (∃ w, truncW sz w = w ∧ revBytes native w (sizeBytes sz) = v) ∧
    (revBytes native v (sizeBytes sz) = v ↔ (bytesLE v (sizeBytes sz)).reverse = bytesLE v (sizeBytes sz)) ∧
    bytesBE v (sizeBytes sz) = bytesLE (revBytes native v (sizeBytes sz)) (sizeBytes sz)

/-! ### Fixed-width extract and append -/

namespace Sys2Proof.Claims

/-- The command `i` stops at the lowest of its `n` required addresses that may not be accessed (R100, R146). -/
def FaultsAtFirstOffending (i : Instr) (n : Nat) (s : State) : Prop :=
  ∀ j, j < n → s.mayAccessRange s.cmd.ptr j → s.mayAccess (s.cmd.ptr + j) = false →
    exec i s = .fault (.bufferPrecondition s.cmd (s.cmd.ptr + j))

/-- The command `i` of word `cw` reads `n` bytes: where all may be accessed it completes, `t` and `rsp.val` hold the value,
`rsp.cnt` = n, `rsp.err` = 0, and nothing else changes; elsewhere it faults. That `t` holds the value after the response
(log 17), and that the latched command is unchanged there (log 21), is the model's choice. -/
def ExtractCommand (i : Instr) (cw : Byte) (n : Nat) (value : (Nat → Byte) → Word64) : Prop :=
  decode cw = .ok i ∧
  ∀ s : State,
    (s.mayAccessRange s.cmd.ptr n → exec i s = .next
      { s with
          t := value s.bufferByte
          busy := false
          rsp := some { val := value s.bufferByte, cnt := BitVec.ofNat 8 n, err := false } }) ∧
    FaultsAtFirstOffending i n s

/-- The command `i` of word `cw` writes `n` bytes: where all may be accessed it completes, the byte at `cmd.ptr + k` becomes
`byte v k`, every other byte and every other piece of state but `t`, whose native bytes were written (R81), is
unchanged, `rsp.val` = 0, `rsp.cnt` = n, `rsp.err` = 0; elsewhere it faults. What `t` holds after the response (log
17), and that the latched command is unchanged there (log 21), is the model's choice. -/
def AppendCommand (i : Instr) (cw : Byte) (sz : Size) (n : Nat) (byte : Word64 → Nat → Byte) : Prop :=
  decode cw = .ok i ∧
  ∀ s : State,
    (s.mayAccessRange s.cmd.ptr n → ∃ u, exec i s = .next u ∧
      (∀ k, k < n → u.mem.read (s.cmd.ptr + k) = byte s.cmd.val k) ∧
      (∀ a, a < s.cmd.ptr ∨ s.cmd.ptr + n ≤ a → u.mem.read a = s.mem.read a) ∧
      nativeBytes s.cfg.native u.t n = u.mem.readBytes s.cmd.ptr n ∧ truncW sz u.t = u.t ∧
      u.busy = false ∧ u.rsp = some { val := 0, cnt := BitVec.ofNat 8 n, err := false } ∧
      u.rem = s.rem ∧ u.acc = s.acc ∧ u.idx = s.idx ∧ u.bt = s.bt ∧ s.sameSurroundings u) ∧
    FaultsAtFirstOffending i n s

end Sys2Proof.Claims

/-- R84 to R87: the four little-endian extracts. The clauses on `t` (log 17) and on the latched command (log 21) after the
response are the model's choice. -/
def Obligations.ExtractLittleEndian : Prop :=
  Claims.ExtractCommand .extLe8 0x01 1 (fun b => (b 0).setWidth 64) ∧
  Claims.ExtractCommand .extLe16 0x09 2 (fun b => (b 1 ++ b 0).setWidth 64) ∧
  Claims.ExtractCommand .extLe32 0x11 4 (fun b => (b 3 ++ b 2 ++ b 1 ++ b 0).setWidth 64) ∧
  Claims.ExtractCommand .extLe64 0x19 8 (fun b => b 7 ++ b 6 ++ b 5 ++ b 4 ++ b 3 ++ b 2 ++ b 1 ++ b 0)

/-- R88 to R91: the four big-endian extracts. The clauses on `t` (log 17) and on the latched command (log 21) after the
response are the model's choice. -/
def Obligations.ExtractBigEndian : Prop :=
  Claims.ExtractCommand .extBe8 0x21 1 (fun b => (b 0).setWidth 64) ∧
  Claims.ExtractCommand .extBe16 0x29 2 (fun b => (b 0 ++ b 1).setWidth 64) ∧
  Claims.ExtractCommand .extBe32 0x31 4 (fun b => (b 0 ++ b 1 ++ b 2 ++ b 3).setWidth 64) ∧
  Claims.ExtractCommand .extBe64 0x39 8 (fun b => b 0 ++ b 1 ++ b 2 ++ b 3 ++ b 4 ++ b 5 ++ b 6 ++ b 7)

/-- R92 to R95: the four little-endian appends. The clauses on `t` (log 17) and on the latched command (log 21) after the
response are the model's choice. -/
def Obligations.AppendLittleEndian : Prop :=
  Claims.AppendCommand .appLe8 0x02 .w8 1 (fun v _ => v.extractLsb' 0 8) ∧
  Claims.AppendCommand .appLe16 0x0A .w16 2 (fun v k => v.extractLsb' (8 * k) 8) ∧
  Claims.AppendCommand .appLe32 0x12 .w32 4 (fun v k => v.extractLsb' (8 * k) 8) ∧
  Claims.AppendCommand .appLe64 0x1A .w64 8 (fun v k => v.extractLsb' (8 * k) 8)

/-- R96 to R99: the four big-endian appends. The clauses on `t` (log 17) and on the latched command (log 21) after the
response are the model's choice. -/
def Obligations.AppendBigEndian : Prop :=
  Claims.AppendCommand .appBe8 0x22 .w8 1 (fun v _ => v.extractLsb' 0 8) ∧
  Claims.AppendCommand .appBe16 0x2A .w16 2 (fun v k => v.extractLsb' (8 * (1 - k)) 8) ∧
  Claims.AppendCommand .appBe32 0x32 .w32 4 (fun v k => v.extractLsb' (8 * (3 - k)) 8) ∧
  Claims.AppendCommand .appBe64 0x3A .w64 8 (fun v k => v.extractLsb' (8 * (7 - k)) 8)

/-- R82: for either value of `NATIVE`, an extract answers `val_E` of the bytes and an append writes `bytes_E` of the value. -/
def Obligations.FixedWidthClosedForms : Prop :=
  ∀ (sz : Size) (s : State), s.mayAccessRange s.cmd.ptr (sizeBytes sz) →
    (∃ u r, exec (Shape.ext .le sz).instr s = .next u ∧ u.rsp = some r ∧
      r.val = valLE (s.mem.readBytes s.cmd.ptr (sizeBytes sz))) ∧
    (∃ u r, exec (Shape.ext .be sz).instr s = .next u ∧ u.rsp = some r ∧
      r.val = valBE (s.mem.readBytes s.cmd.ptr (sizeBytes sz))) ∧
    (∃ u, exec (Shape.app .le sz).instr s = .next u ∧
      u.mem.readBytes s.cmd.ptr (sizeBytes sz) = bytesLE (s.source sz) (sizeBytes sz)) ∧
    (∃ u, exec (Shape.app .be sz).instr s = .next u ∧
      u.mem.readBytes s.cmd.ptr (sizeBytes sz) = bytesBE (s.source sz) (sizeBytes sz))

/-- R83: the round trip through one endianness is lossless, reading with the other tag gives the reversed value, an extract
depends on the bytes and the tag only, and at n = 1 the two tags are the same function but distinct words. `w` is a
later state in which the bytes still stand. The clause on n = 1 compares whole next states, so also the working registers
(log 17) and the latched command (log 21) after the response, whose values are the model's choice. -/
def Obligations.AppendThenExtract : Prop :=
  (∀ (e e' : Endian) (sz : Size) (s u w : State), exec (Shape.app e sz).instr s = .next u →
    w.cmd.ptr = s.cmd.ptr → w.mayAccessRange s.cmd.ptr (sizeBytes sz) →
    (∀ j, j < sizeBytes sz → w.mem.read (s.cmd.ptr + j) = u.mem.read (s.cmd.ptr + j)) →
    ∃ x r, exec (Shape.ext e' sz).instr w = .next x ∧ x.rsp = some r ∧
      r.val = if e' = e then s.source sz else revBytes .le (s.source sz) (sizeBytes sz)) ∧
  (∀ (e : Endian) (sz : Size) (s w s' w' : State),
    (∀ j, j < sizeBytes sz → s.bufferByte j = w.bufferByte j) →
    exec (Shape.ext e sz).instr s = .next s' → exec (Shape.ext e sz).instr w = .next w' → s'.rsp = w'.rsp) ∧
  (∀ s : State, exec .extLe8 s = exec .extBe8 s ∧ exec .appLe8 s = exec .appBe8 s) ∧
  encode .extLe8 ≠ encode .extBe8 ∧ encode .appLe8 ≠ encode .appBe8

/-! ### Variable-length encode -/

namespace Sys2Proof.Claims

/-- The command `i` of word `cw` encodes: where its `maxlen(W)` bytes may be accessed it completes, the L bytes of R111
stand at `cmd.ptr`, every other byte is unchanged, `rsp.cnt` = L as R112 gives it, and of the registers only `rem` and
`idx` change; elsewhere it faults before any write (R114). What the working registers hold after the response (log 17),
and that the latched command is unchanged there (log 21), is the model's choice. -/
def EncodeCommand (i : Instr) (cw : Byte) (sz : Size) (capacity : Nat) : Prop :=
  decode cw = .ok i ∧
  ∀ s : State,
    (s.mayAccessRange s.cmd.ptr capacity → ∃ u, exec i s = .next u ∧
      let v := s.source sz
      let L := encodedLength v
      1 ≤ L ∧ L ≤ capacity ∧
      (∀ k, k + 1 < L → u.mem.read (s.cmd.ptr + k) = 0x80#8 ||| (groupOf v k).setWidth 8) ∧
      u.mem.read (s.cmd.ptr + (L - 1)) = (groupOf v (L - 1)).setWidth 8 ∧
      (u.mem.read (s.cmd.ptr + (L - 1)) = 0 → v = 0 ∧ L = 1) ∧
      (∀ a, a < s.cmd.ptr ∨ s.cmd.ptr + L ≤ a → u.mem.read a = s.mem.read a) ∧
      u.rem = v >>> (7 * (L - 1)) ∧ u.idx = BitVec.ofNat 8 L ∧
      u.busy = false ∧ u.rsp = some { val := 0, cnt := BitVec.ofNat 8 L, err := false } ∧
      u.t = s.t ∧ u.acc = s.acc ∧ u.bt = s.bt ∧ s.sameSurroundings u) ∧
    FaultsAtFirstOffending i capacity s

end Sys2Proof.Claims

/-- R111, R112: the bytes and the count of the four `venc` commands. The clauses on the working registers (log 17)
and on the latched command (log 21) after the response are the model's choice. -/
def Obligations.EncodeWritesTheGroups : Prop :=
  Claims.EncodeCommand .venc8 0x03 .w8 2 ∧ Claims.EncodeCommand .venc16 0x0B .w16 3 ∧
  Claims.EncodeCommand .venc32 0x13 .w32 5 ∧ Claims.EncodeCommand .venc64 0x1B .w64 10

/-- R120: the step view of `venc`, one byte write a step, gives the response and the buffer of the command as one step; and
where reset lands after `k` of its steps, every byte outside the write set is as the completed steps left it, and every
byte in it is a free value of what they left there (U9). The first clause compares the working registers (log 17)
and the latched command (log 21) too, whose values after the response are the model's choice, and the second rests on
log 9. -/
def Obligations.EncodeStepView : Prop :=
  (∀ (sz : Size) (s u : State), exec (Shape.venc sz).instr s = .next u →
    InFlight.steps State.vencStep (maxlen sz) (.running (s.vencStart sz)) = .responded u) ∧
  ∀ (sz : Size) (s u w : State) (k : Nat), decode s.cmd.cw = .ok (Shape.venc sz).instr →
    InFlight.steps State.vencStep k (.running (s.vencStart sz)) = .running u → s.abandon k = .next w →
    ∀ a, w.mem.read a =
      if s.cmd.ptr ≤ a ∧ a < s.cmd.ptr + maxlen sz ∧ s.mayAccess a = true then
        Config.abandonedByte (s.freeCount + (a - s.cmd.ptr)) (u.mem.read a)
      else u.mem.read a

/-- R7, R112: the worst-case lengths, and that no encoding of a W-bit value passes them. -/
def Obligations.EncodedLengthIsBounded : Prop :=
  (maxlen .w8 = 2 ∧ maxlen .w16 = 3 ∧ maxlen .w32 = 5 ∧ maxlen .w64 = 10) ∧
  ∀ (sz : Size) (v : Word64), 1 ≤ encodedLength (truncW sz v) ∧ encodedLength (truncW sz v) ≤ maxlen sz

/-- R61: the encoded length is the L of the table, which says that v lies below 2^(7L) and, for L above 1, not below
2^(7(L-1)). -/
def Obligations.EncodedLengthTable : Prop :=
  ∀ (v : Word64) (L : Nat), encodedLength v = L ↔
    1 ≤ L ∧ v.toNat < 2 ^ (7 * L) ∧ (1 < L → 2 ^ (7 * (L - 1)) ≤ v.toNat)

/-! ### Variable-length decode -/

namespace Sys2Proof.Claims

/-- The command `i` of word `cw` decodes: with `k` the count of R126 and those `k` bytes accessible it completes, `rsp.val`
and `acc` hold the low W bits of the sum, `rsp.cnt` and `idx` hold `k`, `bt` holds the last byte read, and nothing else
changes. What the working registers hold after the response (log 17), and that the latched command is unchanged there
(log 21), is the model's choice. -/
def DecodeCommand (i : Instr) (cw : Byte) (sz : Size) : Prop :=
  decode cw = .ok i ∧
  ∀ (s : State) (k : Nat), s.decodesBytes k → s.mayAccessRange s.cmd.ptr k → exec i s = .next
    { s with
        acc := s.decodedValue sz k
        idx := BitVec.ofNat 8 k
        bt := if k = 0 then s.bt else s.bufferByte (k - 1)
        busy := false
        rsp := some { val := s.decodedValue sz k, cnt := BitVec.ofNat 8 k, err := false } }

end Sys2Proof.Claims

/-- R126: the value and the count of the four `vdec` commands. The clauses on the working registers (log 17)
and on the latched command (log 21) after the response are the model's choice. -/
def Obligations.DecodeReturnsTheGroups : Prop :=
  Claims.DecodeCommand .vdec8 0x04 .w8 ∧ Claims.DecodeCommand .vdec16 0x0C .w16 ∧
  Claims.DecodeCommand .vdec32 0x14 .w32 ∧ Claims.DecodeCommand .vdec64 0x1C .w64

/-- R126: in every state there is exactly one count of bytes read. -/
def Obligations.DecodeCountExists : Prop :=
  ∀ s : State, ∃ k, s.decodesBytes k ∧ ∀ k', s.decodesBytes k' → k' = k

/-- R135, R146: `vdec` stops at the first byte it reaches that may not be read, every earlier byte having its continuation
bit set. -/
def Obligations.DecodeFaultsAtTheFirstOffendingRead : Prop :=
  ∀ i ∈ [Instr.vdec8, .vdec16, .vdec32, .vdec64], ∀ (s : State) (j : Nat), j < s.cmd.len.toNat →
    (∀ l, l < j → continues (s.bufferByte l) = true) → s.mayAccessRange s.cmd.ptr j →
    s.mayAccess (s.cmd.ptr + j) = false → exec i s = .fault (.bufferPrecondition s.cmd (s.cmd.ptr + j))

/-- R130: a decode of 0 bytes answers 0 with no byte read, wherever `cmd.ptr` points and whatever `REGION` is. The clauses
on the working registers (log 17) and on the latched command (log 21) after the response are the model's choice. -/
def Obligations.DecodeOfNoBytes : Prop :=
  ∀ i ∈ [Instr.vdec8, .vdec16, .vdec32, .vdec64], ∀ s : State, s.cmd.len = 0 → exec i s = .next
    { s with acc := 0, idx := 0, busy := false, rsp := some { val := 0, cnt := 0, err := false } }

/-- R128: where all `cmd.len` bytes have bit 7 set, the decode reads all of them and answers what it has accumulated, with
no error. -/
def Obligations.DecodeWithoutTerminator : Prop :=
  ∀ (sz : Size) (s : State), (∀ j, j < s.cmd.len.toNat → continues (s.bufferByte j) = true) →
    s.mayAccessRange s.cmd.ptr s.cmd.len.toNat →
    ∃ u, exec (Shape.vdec sz).instr s = .next u ∧ u.mem = s.mem ∧
      u.rsp = some { val := s.decodedValue sz s.cmd.len.toNat, cnt := s.cmd.len, err := false }

/-- R136: the step view of `vdec`, one byte read a step, ends as the command as one step does. The states
compared hold the working registers (log 17) and the latched command (log 21) too, whose values after the response are
the model's choice. -/
def Obligations.DecodeStepView : Prop :=
  ∀ (sz : Size) (s : State),
    match exec (Shape.vdec sz).instr s with
    | .next u => InFlight.steps (State.vdecStep sz) (s.cmd.len.toNat + 1) (.running s.vdecStart) = .responded u
    | .fault r => InFlight.steps (State.vdecStep sz) (s.cmd.len.toNat + 1) (.running s.vdecStart) = .faulted r
    | .refused _ => False

/-- R119: what `venc.W` has encoded, `vdec.W'` with W' >= W and any `cmd.len` of at least the length decodes to the same
value, reading the same number of bytes. `w` is a later state in which the bytes still stand. -/
def Obligations.EncodeThenDecode : Prop :=
  ∀ (sz sz' : Size) (s u w : State) (r : Response), sizeBits sz ≤ sizeBits sz' →
    exec (Shape.venc sz).instr s = .next u → u.rsp = some r →
    w.cmd.ptr = s.cmd.ptr → r.cnt.toNat ≤ w.cmd.len.toNat → w.mayAccessRange s.cmd.ptr r.cnt.toNat →
    (∀ j, j < r.cnt.toNat → w.mem.read (s.cmd.ptr + j) = u.mem.read (s.cmd.ptr + j)) →
    ∃ x, exec (Shape.vdec sz').instr w = .next x ∧
      x.rsp = some { val := s.source sz, cnt := r.cnt, err := false }

/-! ### All commands -/

/-- R38: a command of the families `ext`, `app`, `venc` whose required bytes pass the top of the address space stops; no
address wraps. -/
def Obligations.NoAddressWraps : Prop :=
  ∀ (i : Instr) (s : State), loadsFrom i = true ∨ storesTo i = true → (∀ sz, i.shape ≠ .vdec sz) →
    2 ^ s.cfg.aw < s.cmd.ptr + mayTouchBytes i s.cmd.len →
    ∃ a, s.cmd.ptr ≤ a ∧ a ≤ max s.cmd.ptr (2 ^ s.cfg.aw) ∧ s.mayAccess a = false ∧
      exec i s = .fault (.bufferPrecondition s.cmd a)

/-- R144: no fault depends on data. Every command whose required addresses (R37) may be accessed ends with a response whose
`rsp.err` is 0, whatever the operands and the bytes. -/
def Obligations.NoFaultDependsOnData : Prop :=
  ∀ (i : Instr) (s : State) (k : Nat), s.requiresBytes i k → s.mayAccessRange s.cmd.ptr k →
    ∃ u r, exec i s = .next u ∧ u.busy = false ∧ u.rsp = some r ∧ r.err = false

/-- R21: the response and the bytes written are a function of the operands the command uses and the bytes it reads: two
states that agree on those end alike, whatever their registers, pending responses, ignored operands, other bytes and
`NATIVE`. R21 does not speak of `AW` and `REGION`: that the two states agree on them is a premise here, because the model
stops where an address may not be accessed (R37, R142; log 7). The bytes written are read at the latched pointer after the
response; that it still is the command's own there is the model's choice (log 21). -/
def Obligations.ResponseDependsOnOperandsAndBytesOnly : Prop :=
  ∀ (i : Instr) (s u : State), sameOperands i s u →
    (loadsFrom i = true → ∀ k, s.requiresBytes i k → ∀ j, j < k → s.bufferByte j = u.bufferByte j) →
    (∃ s' u' r, exec i s = .next s' ∧ exec i u = .next u' ∧ s'.rsp = some r ∧ u'.rsp = some r ∧
      (storesTo i = true → ∀ j, j < r.cnt.toNat → s'.bufferByte j = u'.bufferByte j)) ∨
    (∃ a, exec i s = .fault (.bufferPrecondition s.cmd a) ∧ exec i u = .fault (.bufferPrecondition u.cmd a))

/-- R39: only `app` and `venc` change the buffer, and only the `rsp.cnt` bytes from `cmd.ptr` on. -/
def Obligations.OnlyAppendAndEncodeWriteTheBuffer : Prop :=
  ∀ (i : Instr) (s u : State), exec i s = .next u →
    (storesTo i = false → u.mem = s.mem) ∧
    (storesTo i = true → ∃ r, u.rsp = some r ∧ 1 ≤ r.cnt.toNat ∧ r.cnt.toNat ≤ mayTouchBytes i s.cmd.len ∧
      ∀ a, a < s.cmd.ptr ∨ s.cmd.ptr + r.cnt.toNat ≤ a → u.mem.read a = s.mem.read a)

/-- R41: repeating a command with the same operands gives the same response and leaves every byte as it is. How it is said
here is the model's choice: the second run takes its operands from the latched command, which the model keeps after the
response (log 21), and it is `exec` on a state that is not busy and has the first response pending (log 20). -/
def Obligations.RepeatingACommandChangesNothing : Prop :=
  ∀ (i : Instr) (s u : State), exec i s = .next u →
    ∃ w, exec i u = .next w ∧ w.rsp = u.rsp ∧ ∀ a, w.mem.read a = u.mem.read a

/-- R154, R45: two commands of two units that share a buffer and do not overlap give the same responses and the same
buffer in either order. Two states with one memory stand for the two units, which is the model's choice (log 12). -/
def Obligations.DisjointCommandsRunInEitherOrder : Prop :=
  ∀ (i j : Instr) (s u s' u' : State), s.mem = u.mem → nonOverlapping s i u j →
    exec i s = .next s' → exec j u = .next u' →
    ∃ s'' u'', exec i { s with mem := u'.mem } = .next s'' ∧ exec j { u with mem := s'.mem } = .next u'' ∧
      s''.rsp = s'.rsp ∧ u''.rsp = u'.rsp ∧ ∀ a, s''.mem.read a = u''.mem.read a

/-! ### The step and the protocol -/

/-- R12, R146: with a command in flight and no reset landing in it, a step decodes the latched word; a legal word runs its
command, and nothing is added around it. -/
def Obligations.StepRunsTheLatchedCommand : Prop :=
  ∀ (s : State) (i : Instr), s.busy = true → (∀ k rest, s.host ≠ .reset (.inFlight k) :: rest) →
    decode s.cmd.cw = .ok i → step s = exec i s

/-- R141, R147, R149: a reserved word answers `rsp.err` = 1, `rsp.val` = 0, `rsp.cnt` = 0; the sticky fault mark is set and
nothing else changes. That the step answers a next state and sets the model's mark (log 6), that the latched command
(log 21) and the working registers (log 17) are unchanged after the response, is the model's choice. -/
def Obligations.StepTakesIllegalCommand : Prop :=
  ∀ (s : State), s.busy = true → (∀ k rest, s.host ≠ .reset (.inFlight k) :: rest) → legalWord s.cmd.cw = false →
    step s = .next
      { s with busy := false, rsp := some { val := 0, cnt := 0, err := true }, faultMark := true }

/-- R12, R13: an idle unit latches the command the host issues, its pointer cut to `AW` bits (log 15), and is busy. That
the command counts as unanswered (log 22), and that the working registers hold their old values there (log 17), is the
model's choice. -/
def Obligations.StepIssuesACommand : Prop :=
  ∀ (s : State) (c : Command) (rest : List HostEvent), s.busy = false → s.rsp = none → s.host = .issue c :: rest →
    step s = .next { s with cmd := { c with ptr := c.ptr % 2 ^ s.cfg.aw }, busy := true, host := rest, unanswered := true }

/-- R12: the host takes a pending response before it does anything else, unless it asserts reset there. The model's
choice: the taking is a step of its own (log 5), the response is recorded (log 19), the command last issued is answered
(log 22), and the latched command (log 21) and the working registers (log 17) are unchanged until the next issue. -/
def Obligations.StepTakesAResponse : Prop :=
  ∀ (s : State) (r : Response), s.busy = false → s.rsp = some r →
    (∀ p rest, s.host = .reset p :: rest → p = .idle) →
    step s = .next { s with rsp := none, taken := s.taken ++ [r], unanswered := false }

/-- R19, R153: an idle unit waits while the host does nothing, and the host's store changes its byte and no other; an
address above `2 ^ AW - 1` does not exist (log 14). The model's choice: the waiting unit stays as it is, whole (log 18),
and the store, a step of its own (log 5), leaves the latched command (log 21) and the working registers (log 17) of the
idle unit unchanged. -/
def Obligations.StepWaitsAndStores : Prop :=
  (∀ s : State, s.idle = true → s.host = [] → step s = .next s) ∧
  ∀ (s : State) (a : Nat) (b : Byte) (rest : List HostEvent), s.idle = true → s.host = .store a b :: rest →
    (a < 2 ^ s.cfg.aw → ∃ u, step s = .next u ∧ u = { s with mem := u.mem, host := rest } ∧
      ∀ x, u.mem.read x = if x = a then b else s.mem.read x) ∧
    (2 ^ s.cfg.aw ≤ a → step s = .fault (.outsideBufferSpace a))

/-- The interface's own: a word placed for the next step is the word it decodes and runs (log 11). -/
def Obligations.FetchWordRunsNext : Prop :=
  ∀ (s : State) (w : Nat) (i : Instr), w < 256 → decodeTableWord 8 w = some i →
    step (s.withFetchWord 8 w) = exec i (s.withFetchWord 8 w)

/-- R173: with its addresses accessible and no reset landing in it, a command in flight reaches its response in one step
of the model, and the unit is idle again once the host has taken it. -/
def Obligations.CommandsReachTheirResponse : Prop :=
  ∀ (s : State) (i : Instr), s.busy = true → (∀ p rest, s.host ≠ .reset p :: rest) → decode s.cmd.cw = .ok i →
    s.mayAccessRange s.cmd.ptr (mayTouchBytes i s.cmd.len) →
    ∃ u r w, step s = .next u ∧ u.rsp = some r ∧ r.err = false ∧ step u = .next w ∧ w.idle = true ∧
      w.taken = s.taken ++ [r]

/-- R156, R140, R149: a command list whose addresses may be accessed runs to its end, one response each in order; a
response has `rsp.err` set exactly where the word was reserved, and the end is good exactly when no word was. The three
steps for each command (log 5), the mark (log 6), the list of responses taken (log 19) and the unanswered command
(log 22) are the model's choice. So is that `goodEnd` waits for the host's whole list (log 23), which holds no store and no
reset here. -/
def Obligations.CommandListRunsToItsEnd : Prop :=
  ∀ (s : State) (cs : List Command), s.idle = true → s.host = cs.map HostEvent.issue →
    (∀ c ∈ cs, ∀ i, decode c.cw = .ok i → s.mayAccessRange c.ptr (mayTouchBytes i c.len)) →
    ∃ (u : State) (rs : List Response), Host.Core.run Sys2Proof.core (3 * cs.length) s = .next u ∧
      u.idle = true ∧ u.host = [] ∧ u.taken = s.taken ++ rs ∧
      rs.map (fun r => r.err) = cs.map (fun c => !legalWord c.cw) ∧
      (u.goodEnd = true ↔
        s.faultMark = false ∧ (cs = [] → s.unanswered = false) ∧ ∀ c ∈ cs, legalWord c.cw = true)

/-- R156: while a command is unanswered, one step reaches a good end only by taking a response: a reset that abandons the
command, or drops its response, does not. That the model keeps a record of the unanswered command (log 22), and
that `goodEnd` waits for the host's whole list (log 23), is its choice. -/
def Obligations.GoodEndComesByTakingAResponse : Prop :=
  ∀ s u : State, s.unanswered = true → step s = .next u → u.goodEnd = true →
    ∃ r, s.busy = false ∧ s.rsp = some r ∧ u.rsp = none ∧ u.taken = s.taken ++ [r]

/-! ### Reset -/

/-- R22, R160, R161: reset leaves the unit idle with no response pending and does not touch the buffer. That it keeps the
record of the run is the model's choice (log 10, log 22). -/
def Obligations.ResetLeavesTheUnitIdle : Prop :=
  State.reset.idle = true ∧
  ∀ (s : State) (p : ResetPoint) (rest : List HostEvent), s.busy = false → s.host = .reset p :: rest →
    s.rsp = none ∨ p ≠ .idle →
    ∃ u, step s = .next u ∧ u.busy = false ∧ u.rsp = none ∧ u.mem = s.mem ∧ u.cfg = s.cfg ∧ u.host = rest ∧
      u.taken = s.taken ∧ u.faultMark = s.faultMark ∧ u.unanswered = s.unanswered ∧ u.freeCount = s.freeCount

/-- The model's choice (log 1, log 2, log 3, log 4): what `State.reset` holds where R22 says "unspecified" or nothing. -/
def Obligations.ResetValuesTheModelNames : Prop :=
  State.reset.cmd = { cw := 0, ptr := 0, val := 0, len := 0 } ∧ State.reset.t = 0 ∧ State.reset.rem = 0 ∧
  State.reset.acc = 0 ∧ State.reset.idx = 0 ∧ State.reset.bt = 0 ∧ (∀ a, State.reset.mem.read a = 0) ∧
  State.reset.cfg.aw = 32 ∧ State.reset.cfg.native = .le ∧
  ∀ a, State.reset.mayAccess a = true ↔ a < 2 ^ 32

/-- R162, U9: reset in a command in flight after `k` byte accesses: no response; every address outside the write set reads
as before; each address of the write set holds a free value, applied to what R162 has there: the byte that the completed
command would have left where it is among the first `k` writes, and the old byte where it is not (log 9). -/
def Obligations.AbandonedCommandSpoilsItsWriteSet : Prop :=
  ∀ (s : State) (k : Nat) (rest : List HostEvent) (i : Instr), s.busy = true →
    s.host = .reset (.inFlight k) :: rest → decode s.cmd.cw = .ok i →
    s.mayAccessRange s.cmd.ptr (mayTouchBytes i s.cmd.len) →
    ∃ u x r, step s = .next u ∧ u.busy = false ∧ u.rsp = none ∧ u.host = rest ∧ u.taken = s.taken ∧ u.cfg = s.cfg ∧
      u.unanswered = s.unanswered ∧ exec i s = .next x ∧ x.rsp = some r ∧
      (∀ a, ¬s.mayStore i a → u.mem.read a = s.mem.read a) ∧
      ∀ a, s.mayStore i a → u.mem.read a = Config.abandonedByte (s.freeCount + (a - s.cmd.ptr))
        (if a < s.cmd.ptr + min k r.cnt.toNat then x.mem.read a else s.mem.read a)

/-! ### Invariants -/

/-- The invariant of the machine (R12, R13, R19, R156) is kept by every step, from every state. The canonical form and the
record of the unanswered command (log 22) are the model's own. -/
def Obligations.StepKeepsTheInvariant : Prop :=
  ∀ s u : State, s.invariant = true → step s = .next u → u.invariant = true

/-- The invariant holds after reset. -/
def Obligations.ResetMeetsTheInvariant : Prop := State.reset.invariant = true

/-- R4, R5, R37: no step changes `NATIVE`, `AW` or `REGION`. -/
def Obligations.StepKeepsTheParameters : Prop :=
  ∀ s u : State, step s = .next u → u.cfg = s.cfg

/-- R149: the fault mark of a run is sticky, and only a reserved word in flight sets it. The mark itself (log 6), and that
reset keeps it (log 10), are the model's choice. -/
def Obligations.FaultMarkIsSticky : Prop :=
  ∀ s u : State, step s = .next u →
    (s.faultMark = true → u.faultMark = true) ∧
    (s.faultMark = false → u.faultMark = true → s.busy = true ∧ legalWord s.cmd.cw = false)

/-- R12, R160: a command in flight ends in this step, with its response pending or by reset; no other step ends it. -/
def Obligations.BusyEndsByResponseOrReset : Prop :=
  ∀ s u : State, s.busy = true → step s = .next u →
    u.busy = false ∧ ((∃ r, u.rsp = some r) ∨ ∃ k rest, s.host = .reset (.inFlight k) :: rest)
end

