-- ==== Sys2Proof/Laws/Bytes.lean ====
section
/-! SUPPORT. The byte order functions byte by byte: what byte `k` of each of them is. A value is the value of its eight
bytes (`byteOf_ext`), so later proofs compare bytes and never unfold these functions. -/

namespace Sys2Proof.Machine

/-- Two values with the same eight bytes are the same value. -/
theorem byteOf_ext {v w : Word64} (h : ∀ k, k < 8 → byteOf v k = byteOf w k) : v = w := by
  refine BitVec.eq_of_getLsbD_eq fun i hi => ?_
  have hb := congrArg (fun b : Byte => b.getLsbD (i % 8)) (h (i / 8) (by omega))
  have he : 8 * (i / 8) + i % 8 = i := by omega
  have hlt : i % 8 < 8 := by omega
  simp only [byteOf, BitVec.getLsbD_extractLsb', he] at hb
  simp_all

theorem byteOf_or (v w : Word64) (k : Nat) : byteOf (v ||| w) k = byteOf v k ||| byteOf w k := by
  simp [byteOf, BitVec.extractLsb'_or]

theorem byteOf_shiftLeft_8 (v : Word64) {k : Nat} (hk : k < 8) :
    byteOf (v <<< 8) k = if k = 0 then 0 else byteOf v (k - 1) := by
  refine BitVec.eq_of_getLsbD_eq fun i hi => ?_
  by_cases h : k = 0
  · subst h
    simp [byteOf]
    omega
  · have h8 : ¬8 * k + i < 8 := by omega
    have he : 8 * k + i - 8 = 8 * (k - 1) + i := by omega
    simp only [byteOf, BitVec.getLsbD_extractLsb', BitVec.getLsbD_shiftLeft, h, if_false]
    simp [h8, he, hi]
    intro
    omega

theorem byteOf_setWidth (b : Byte) (k : Nat) : byteOf (b.setWidth 64) k = if k = 0 then b else 0 := by
  refine BitVec.eq_of_getLsbD_eq fun i hi => ?_
  by_cases h : k = 0
  · subst h
    simp [byteOf, hi]
    intro
    omega
  · simp [byteOf, h, hi]
    intro
    exact BitVec.getLsbD_of_ge _ _ (by omega)

/-- Byte `k` of `val_LE` is the byte at index `k`. -/
theorem byteOf_valLE (bs : List Byte) {k : Nat} (hk : k < 8) : byteOf (valLE bs) k = bs.getD k 0 := by
  induction bs generalizing k with
  | nil => simp [valLE, byteOf]
  | cons b bs ih =>
    rw [valLE, byteOf_or, byteOf_setWidth, byteOf_shiftLeft_8 _ hk]
    cases k with
    | zero => simp
    | succ k => simp [ih (k := k) (by omega)]

theorem byteOf_foldl_valBE (bs : List Byte) (v : Word64) {k : Nat} (hk : k < 8) :
    byteOf (bs.foldl (fun v b => (v <<< 8) ||| b.setWidth 64) v) k =
      if k < bs.length then bs.getD (bs.length - 1 - k) 0 else byteOf v (k - bs.length) := by
  induction bs generalizing v with
  | nil => simp
  | cons b bs ih =>
    simp only [List.foldl_cons, ih, List.length_cons]
    by_cases h : k < bs.length
    · rw [if_pos h, if_pos (by omega), show bs.length + 1 - 1 - k = bs.length - 1 - k + 1 by omega]
      simp
    · rw [if_neg h, byteOf_or, byteOf_setWidth, byteOf_shiftLeft_8 _ (by omega)]
      by_cases h2 : k = bs.length
      · subst h2
        simp
      · rw [if_neg (by omega), if_neg (by omega), if_neg (by omega)]
        simp
        congr 1

/-- Byte `k` of `val_BE` is the byte at index `k` from the end. -/
theorem byteOf_valBE (bs : List Byte) {k : Nat} (hk : k < 8) :
    byteOf (valBE bs) k = if k < bs.length then bs.getD (bs.length - 1 - k) 0 else 0 := by
  rw [valBE, byteOf_foldl_valBE _ _ hk]
  simp [byteOf]

theorem sizeBytes_le (sz : Size) : sizeBytes sz ≤ 8 := by cases sz <;> decide

theorem sizeBytes_pos (sz : Size) : 0 < sizeBytes sz := by cases sz <;> decide

/-- Byte `k` of a value cut to W bits: the value's byte below n, zero above it. -/
theorem byteOf_truncW (sz : Size) (v : Word64) (k : Nat) :
    byteOf (truncW sz v) k = if k < sizeBytes sz then byteOf v k else 0 := by
  refine BitVec.eq_of_getLsbD_eq fun i hi => ?_
  have hn := sizeBytes_le sz
  split
  · have h1 : 8 * k + i < 64 := by omega
    have h2 : 8 * k + i < 8 * sizeBytes sz := by omega
    simp [byteOf, truncW, sizeBits, hi, h1, h2]
  · have h3 : ¬8 * k + i < 8 * sizeBytes sz := by omega
    simp [byteOf, truncW, sizeBits, hi, h3]

@[simp] theorem length_bytesLE (v : Word64) (n : Nat) : (bytesLE v n).length = n := by simp [bytesLE]

@[simp] theorem length_bytesBE (v : Word64) (n : Nat) : (bytesBE v n).length = n := by simp [bytesBE]

@[simp] theorem length_nativeBytes (native : Endian) (v : Word64) (n : Nat) : (nativeBytes native v n).length = n := by
  cases native <;> simp [nativeBytes]

theorem getD_bytesLE (v : Word64) {n k : Nat} (hk : k < n) : (bytesLE v n).getD k 0 = byteOf v k := by
  simp [bytesLE, List.getD, hk]

theorem getD_bytesBE (v : Word64) {n k : Nat} (hk : k < n) : (bytesBE v n).getD k 0 = byteOf v (n - 1 - k) := by
  simp [bytesBE, List.getD, hk]

end Sys2Proof.Machine
end

