-- ==== Sys2Proof/Laws/Memory.lean ====
section
/-! SUPPORT. The laws of the buffer memory: read after write, the frame of a write, and the canonical form that every
operation keeps. -/

namespace Sys2Proof.Machine

@[simp] theorem Memory.read_nil (x : Nat) : Memory.read [] x = Config.unlistedByte := rfl

theorem Memory.read_cons (a : Nat) (b : Byte) (m : Memory) (x : Nat) :
    Memory.read ((a, b) :: m) x = if a = x then b else Memory.read m x := rfl

/-! ### Read after write -/

theorem Memory.read_erase (m : Memory) (x y : Nat) :
    (m.erase x).read y = if y = x then Config.unlistedByte else m.read y := by
  induction m with
  | nil => simp [Memory.erase]
  | cons c m ih =>
    obtain ⟨a, b⟩ := c
    simp only [Memory.erase] at ih
    by_cases hax : a = x
    · subst hax
      simp only [Memory.erase, List.filter_cons, bne_self_eq_false, Bool.false_eq_true, if_false, ih,
        Memory.read_cons]
      by_cases hy : y = a
      · simp [hy]
      · simp [hy, Ne.symm hy]
    · have hne : (a != x) = true := by simpa using hax
      simp only [Memory.erase, List.filter_cons, hne, if_true, Memory.read_cons, ih]
      by_cases hay : a = y
      · subst hay; simp [hax]
      · simp [hay]

theorem Memory.read_insertCell (m : Memory) (x : Nat) (v : Byte) (y : Nat) :
    (Memory.insertCell (m.erase x) x v).read y = if y = x then v else m.read y := by
  have key : ∀ n : Memory, (∀ c ∈ n, c.1 ≠ x) →
      (Memory.insertCell n x v).read y = if y = x then v else n.read y := by
    intro n
    induction n with
    | nil => intro _; simp only [Memory.insertCell, Memory.read_cons, Memory.read_nil, eq_comm]
    | cons c n ih =>
      obtain ⟨a, b⟩ := c
      intro hn
      have hax : a ≠ x := hn (a, b) (by simp)
      simp only [Memory.insertCell]
      split
      · simp only [Memory.read_cons, eq_comm]
      · simp only [Memory.read_cons, ih (fun c hc => hn c (by simp [hc]))]
        by_cases hay : a = y
        · subst hay; simp [hax]
        · simp [hay]
  rw [key _ (by intro c hc; simpa using (List.mem_filter.mp hc).2), Memory.read_erase]
  by_cases hy : y = x <;> simp [hy]

/-- One byte write changes the byte at its address and no other (R30). -/
@[simp] theorem Memory.read_write (m : Memory) (x : Nat) (v : Byte) (y : Nat) :
    (m.write x v).read y = if y = x then v else m.read y := by
  unfold Memory.write
  split
  · next h => rw [Memory.read_erase, h]
  · exact Memory.read_insertCell m x v y

@[simp] theorem Memory.length_readBytes (m : Memory) (a k : Nat) : (m.readBytes a k).length = k := by
  induction k generalizing a with
  | zero => rfl
  | succ k ih => simp [Memory.readBytes, ih]

/-- `MemRead` returns `b[i]` from `addr + i` (R31). -/
theorem Memory.getElem_readBytes (m : Memory) (a k i : Nat) (h : i < (m.readBytes a k).length) :
    (m.readBytes a k)[i] = m.read (a + i) := by
  induction k generalizing a i with
  | zero => simp at h
  | succ k ih =>
    cases i with
    | zero => simp [Memory.readBytes]
    | succ i => simp [Memory.readBytes, ih, Nat.add_assoc, Nat.add_comm 1 i]

/-- Equal bytes are read alike. -/
theorem Memory.readBytes_congr {m n : Memory} {a k : Nat} (h : ∀ j, j < k → m.read (a + j) = n.read (a + j)) :
    m.readBytes a k = n.readBytes a k := by
  induction k generalizing a with
  | zero => rfl
  | succ k ih =>
    have h0 := h 0 (by omega)
    simp only [Nat.add_zero] at h0
    simp only [Memory.readBytes, h0]
    rw [ih (fun j hj => by simpa [Nat.add_assoc, Nat.add_comm 1 j] using h (j + 1) (by omega))]

/-- `MemWrite` changes the bytes it is given and no others (R32). -/
theorem Memory.read_writeBytes (m : Memory) (a : Nat) (bs : List Byte) (x : Nat) :
    (m.writeBytes a bs).read x = if a ≤ x ∧ x < a + bs.length then bs.getD (x - a) 0 else m.read x := by
  induction bs generalizing m a with
  | nil => simp [Memory.writeBytes, show ¬(a ≤ x ∧ x < a) by omega]
  | cons b bs ih =>
    simp only [Memory.writeBytes, ih, Memory.read_write, List.length_cons]
    by_cases h1 : a + 1 ≤ x ∧ x < a + 1 + bs.length
    · have h2 : a ≤ x ∧ x < a + (bs.length + 1) := by omega
      have h3 : x - a = (x - (a + 1)) + 1 := by omega
      rw [if_pos h1, if_pos h2, h3, List.getD_cons_succ]
    · rw [if_neg h1]
      by_cases hx : x = a
      · subst hx; simp
      · rw [if_neg hx, if_neg (by omega)]

/-! ### The canonical form -/

theorem Memory.wfAbove_mono {lo lo' : Nat} (h : lo' ≤ lo) {m : Memory} (hm : m.wfAbove lo = true) :
    m.wfAbove lo' = true := by
  cases m with
  | nil => rfl
  | cons c m =>
    obtain ⟨a, b⟩ := c
    simp only [Memory.wfAbove, Bool.and_eq_true, decide_eq_true_eq] at hm ⊢
    exact ⟨⟨by omega, hm.1.2⟩, hm.2⟩

theorem Memory.wfAbove_erase {lo : Nat} {m : Memory} (x : Nat) (hm : m.wfAbove lo = true) :
    (m.erase x).wfAbove lo = true := by
  induction m generalizing lo with
  | nil => rfl
  | cons c m ih =>
    obtain ⟨a, b⟩ := c
    simp only [Memory.wfAbove, Bool.and_eq_true, decide_eq_true_eq] at hm
    have ih' := ih hm.2
    simp only [Memory.erase] at ih'
    by_cases hax : (a != x) = true
    · simp only [Memory.erase, List.filter_cons, hax, if_true, Memory.wfAbove, Bool.and_eq_true,
        decide_eq_true_eq]
      exact ⟨hm.1, ih'⟩
    · simp only [Memory.erase, List.filter_cons, hax]
      exact Memory.wfAbove_mono (by omega) ih'

theorem Memory.wfAbove_insertCell {lo : Nat} {m : Memory} {x : Nat} {v : Byte} (hlo : lo ≤ x)
    (hv : v ≠ Config.unlistedByte) (hx : ∀ c ∈ m, c.1 ≠ x) (hm : m.wfAbove lo = true) :
    (Memory.insertCell m x v).wfAbove lo = true := by
  induction m generalizing lo with
  | nil => simp [Memory.insertCell, Memory.wfAbove, hlo, hv]
  | cons c m ih =>
    obtain ⟨a, b⟩ := c
    have hax : a ≠ x := hx (a, b) (by simp)
    simp only [Memory.wfAbove, Bool.and_eq_true, decide_eq_true_eq] at hm
    simp only [Memory.insertCell]
    split
    · next hlt =>
      simp only [Memory.wfAbove, Bool.and_eq_true, decide_eq_true_eq]
      exact ⟨⟨hlo, by simpa using hv⟩, ⟨⟨by omega, hm.1.2⟩, hm.2⟩⟩
    · next hlt =>
      simp only [Memory.wfAbove, Bool.and_eq_true, decide_eq_true_eq]
      exact ⟨hm.1, ih (by omega) (fun c hc => hx c (by simp [hc])) hm.2⟩

/-- A byte write keeps the canonical form. -/
theorem Memory.wf_write {m : Memory} (x : Nat) (v : Byte) (hm : m.wf = true) : (m.write x v).wf = true := by
  unfold Memory.write
  split
  · exact Memory.wfAbove_erase x hm
  · next hv =>
    exact Memory.wfAbove_insertCell (Nat.zero_le x) hv
      (by intro c hc; simpa using (List.mem_filter.mp hc).2) (Memory.wfAbove_erase x hm)

/-- `MemWrite` keeps the canonical form. -/
theorem Memory.wf_writeBytes {m : Memory} (a : Nat) (bs : List Byte) (hm : m.wf = true) :
    (m.writeBytes a bs).wf = true := by
  induction bs generalizing m a with
  | nil => exact hm
  | cons b bs ih => exact ih (a + 1) (Memory.wf_write a b hm)

theorem Memory.mem_insertCell {m : Memory} {x : Nat} {v : Byte} {c : Host.Cell}
    (h : c ∈ Memory.insertCell m x v) : c = (x, v) ∨ c ∈ m := by
  induction m with
  | nil => simpa [Memory.insertCell] using h
  | cons d m ih =>
    obtain ⟨a, b⟩ := d
    simp only [Memory.insertCell] at h
    split at h
    · simpa using h
    · rcases List.mem_cons.mp h with h | h
      · exact Or.inr (by simp [h])
      · rcases ih h with h | h
        · exact Or.inl h
        · exact Or.inr (by simp [h])

/-- A byte write inside the buffer space keeps memory inside it. -/
theorem Memory.within_write {m : Memory} {aw x : Nat} (v : Byte) (hx : x < 2 ^ aw) (hm : m.within aw = true) :
    (m.write x v).within aw = true := by
  simp only [Memory.within, List.all_eq_true, decide_eq_true_eq] at hm ⊢
  intro c hc
  unfold Memory.write at hc
  split at hc
  · exact hm c (List.mem_filter.mp hc).1
  · rcases Memory.mem_insertCell hc with h | h
    · rw [h]; exact hx
    · exact hm c (List.mem_filter.mp h).1

/-- `MemWrite` inside the buffer space keeps memory inside it. -/
theorem Memory.within_writeBytes {m : Memory} {aw a : Nat} {bs : List Byte}
    (h : ∀ j, j < bs.length → a + j < 2 ^ aw) (hm : m.within aw = true) :
    (m.writeBytes a bs).within aw = true := by
  induction bs generalizing m a with
  | nil => exact hm
  | cons b bs ih =>
    refine ih (fun j hj => ?_) (Memory.within_write b (by simpa using h 0 (by simp)) hm)
    have := h (j + 1) (by simpa using hj)
    omega

end Sys2Proof.Machine
end

