-- ==== Sys2Proof/Laws/State.lean ====
section
/-! SUPPORT. For each named update of State, one lemma per field: what the field holds after it. All by rfl. -/

namespace Sys2Proof.Machine

/-! ### `State.respond` -/

@[simp] theorem State.respond_cfg (s : State) (val : Word64) (cnt : Byte) (err : Bool) : (s.respond val cnt err).cfg = s.cfg := rfl
@[simp] theorem State.respond_mem (s : State) (val : Word64) (cnt : Byte) (err : Bool) : (s.respond val cnt err).mem = s.mem := rfl
@[simp] theorem State.respond_busy (s : State) (val : Word64) (cnt : Byte) (err : Bool) : (s.respond val cnt err).busy = false := rfl
@[simp] theorem State.respond_cmd (s : State) (val : Word64) (cnt : Byte) (err : Bool) : (s.respond val cnt err).cmd = s.cmd := rfl
@[simp] theorem State.respond_t (s : State) (val : Word64) (cnt : Byte) (err : Bool) : (s.respond val cnt err).t = s.t := rfl
@[simp] theorem State.respond_rem (s : State) (val : Word64) (cnt : Byte) (err : Bool) : (s.respond val cnt err).rem = s.rem := rfl
@[simp] theorem State.respond_acc (s : State) (val : Word64) (cnt : Byte) (err : Bool) : (s.respond val cnt err).acc = s.acc := rfl
@[simp] theorem State.respond_idx (s : State) (val : Word64) (cnt : Byte) (err : Bool) : (s.respond val cnt err).idx = s.idx := rfl
@[simp] theorem State.respond_bt (s : State) (val : Word64) (cnt : Byte) (err : Bool) : (s.respond val cnt err).bt = s.bt := rfl
@[simp] theorem State.respond_rsp (s : State) (val : Word64) (cnt : Byte) (err : Bool) : (s.respond val cnt err).rsp = some { val := val, cnt := cnt, err := err } := rfl
@[simp] theorem State.respond_host (s : State) (val : Word64) (cnt : Byte) (err : Bool) : (s.respond val cnt err).host = s.host := rfl
@[simp] theorem State.respond_taken (s : State) (val : Word64) (cnt : Byte) (err : Bool) : (s.respond val cnt err).taken = s.taken := rfl
@[simp] theorem State.respond_faultMark (s : State) (val : Word64) (cnt : Byte) (err : Bool) : (s.respond val cnt err).faultMark = s.faultMark := rfl
@[simp] theorem State.respond_unanswered (s : State) (val : Word64) (cnt : Byte) (err : Bool) : (s.respond val cnt err).unanswered = s.unanswered := rfl
@[simp] theorem State.respond_freeCount (s : State) (val : Word64) (cnt : Byte) (err : Bool) : (s.respond val cnt err).freeCount = s.freeCount := rfl

/-! ### `State.raiseIllegalCommand` -/

@[simp] theorem State.raiseIllegalCommand_cfg (s : State) : (s.raiseIllegalCommand).cfg = s.cfg := rfl
@[simp] theorem State.raiseIllegalCommand_mem (s : State) : (s.raiseIllegalCommand).mem = s.mem := rfl
@[simp] theorem State.raiseIllegalCommand_busy (s : State) : (s.raiseIllegalCommand).busy = false := rfl
@[simp] theorem State.raiseIllegalCommand_cmd (s : State) : (s.raiseIllegalCommand).cmd = s.cmd := rfl
@[simp] theorem State.raiseIllegalCommand_t (s : State) : (s.raiseIllegalCommand).t = s.t := rfl
@[simp] theorem State.raiseIllegalCommand_rem (s : State) : (s.raiseIllegalCommand).rem = s.rem := rfl
@[simp] theorem State.raiseIllegalCommand_acc (s : State) : (s.raiseIllegalCommand).acc = s.acc := rfl
@[simp] theorem State.raiseIllegalCommand_idx (s : State) : (s.raiseIllegalCommand).idx = s.idx := rfl
@[simp] theorem State.raiseIllegalCommand_bt (s : State) : (s.raiseIllegalCommand).bt = s.bt := rfl
@[simp] theorem State.raiseIllegalCommand_rsp (s : State) : (s.raiseIllegalCommand).rsp = some { val := 0, cnt := 0, err := true } := rfl
@[simp] theorem State.raiseIllegalCommand_host (s : State) : (s.raiseIllegalCommand).host = s.host := rfl
@[simp] theorem State.raiseIllegalCommand_taken (s : State) : (s.raiseIllegalCommand).taken = s.taken := rfl
@[simp] theorem State.raiseIllegalCommand_faultMark (s : State) : (s.raiseIllegalCommand).faultMark = true := rfl
@[simp] theorem State.raiseIllegalCommand_unanswered (s : State) : (s.raiseIllegalCommand).unanswered = s.unanswered := rfl
@[simp] theorem State.raiseIllegalCommand_freeCount (s : State) : (s.raiseIllegalCommand).freeCount = s.freeCount := rfl

/-! ### `State.takeResponse` -/

@[simp] theorem State.takeResponse_cfg (s : State) (r : Response) : (s.takeResponse r).cfg = s.cfg := rfl
@[simp] theorem State.takeResponse_mem (s : State) (r : Response) : (s.takeResponse r).mem = s.mem := rfl
@[simp] theorem State.takeResponse_busy (s : State) (r : Response) : (s.takeResponse r).busy = s.busy := rfl
@[simp] theorem State.takeResponse_cmd (s : State) (r : Response) : (s.takeResponse r).cmd = s.cmd := rfl
@[simp] theorem State.takeResponse_t (s : State) (r : Response) : (s.takeResponse r).t = s.t := rfl
@[simp] theorem State.takeResponse_rem (s : State) (r : Response) : (s.takeResponse r).rem = s.rem := rfl
@[simp] theorem State.takeResponse_acc (s : State) (r : Response) : (s.takeResponse r).acc = s.acc := rfl
@[simp] theorem State.takeResponse_idx (s : State) (r : Response) : (s.takeResponse r).idx = s.idx := rfl
@[simp] theorem State.takeResponse_bt (s : State) (r : Response) : (s.takeResponse r).bt = s.bt := rfl
@[simp] theorem State.takeResponse_rsp (s : State) (r : Response) : (s.takeResponse r).rsp = none := rfl
@[simp] theorem State.takeResponse_host (s : State) (r : Response) : (s.takeResponse r).host = s.host := rfl
@[simp] theorem State.takeResponse_taken (s : State) (r : Response) : (s.takeResponse r).taken = s.taken ++ [r] := rfl
@[simp] theorem State.takeResponse_faultMark (s : State) (r : Response) : (s.takeResponse r).faultMark = s.faultMark := rfl
@[simp] theorem State.takeResponse_unanswered (s : State) (r : Response) : (s.takeResponse r).unanswered = false := rfl
@[simp] theorem State.takeResponse_freeCount (s : State) (r : Response) : (s.takeResponse r).freeCount = s.freeCount := rfl

/-! ### `State.dropEvent` -/

@[simp] theorem State.dropEvent_cfg (s : State) : (s.dropEvent).cfg = s.cfg := rfl
@[simp] theorem State.dropEvent_mem (s : State) : (s.dropEvent).mem = s.mem := rfl
@[simp] theorem State.dropEvent_busy (s : State) : (s.dropEvent).busy = s.busy := rfl
@[simp] theorem State.dropEvent_cmd (s : State) : (s.dropEvent).cmd = s.cmd := rfl
@[simp] theorem State.dropEvent_t (s : State) : (s.dropEvent).t = s.t := rfl
@[simp] theorem State.dropEvent_rem (s : State) : (s.dropEvent).rem = s.rem := rfl
@[simp] theorem State.dropEvent_acc (s : State) : (s.dropEvent).acc = s.acc := rfl
@[simp] theorem State.dropEvent_idx (s : State) : (s.dropEvent).idx = s.idx := rfl
@[simp] theorem State.dropEvent_bt (s : State) : (s.dropEvent).bt = s.bt := rfl
@[simp] theorem State.dropEvent_rsp (s : State) : (s.dropEvent).rsp = s.rsp := rfl
@[simp] theorem State.dropEvent_host (s : State) : (s.dropEvent).host = s.host.tail := rfl
@[simp] theorem State.dropEvent_taken (s : State) : (s.dropEvent).taken = s.taken := rfl
@[simp] theorem State.dropEvent_faultMark (s : State) : (s.dropEvent).faultMark = s.faultMark := rfl
@[simp] theorem State.dropEvent_unanswered (s : State) : (s.dropEvent).unanswered = s.unanswered := rfl
@[simp] theorem State.dropEvent_freeCount (s : State) : (s.dropEvent).freeCount = s.freeCount := rfl

/-! ### `State.issue` -/

@[simp] theorem State.issue_cfg (s : State) (c : Command) : (s.issue c).cfg = s.cfg := rfl
@[simp] theorem State.issue_mem (s : State) (c : Command) : (s.issue c).mem = s.mem := rfl
@[simp] theorem State.issue_busy (s : State) (c : Command) : (s.issue c).busy = true := rfl
@[simp] theorem State.issue_cmd (s : State) (c : Command) : (s.issue c).cmd = { c with ptr := c.ptr % 2 ^ s.cfg.aw } := rfl
@[simp] theorem State.issue_t (s : State) (c : Command) : (s.issue c).t = s.t := rfl
@[simp] theorem State.issue_rem (s : State) (c : Command) : (s.issue c).rem = s.rem := rfl
@[simp] theorem State.issue_acc (s : State) (c : Command) : (s.issue c).acc = s.acc := rfl
@[simp] theorem State.issue_idx (s : State) (c : Command) : (s.issue c).idx = s.idx := rfl
@[simp] theorem State.issue_bt (s : State) (c : Command) : (s.issue c).bt = s.bt := rfl
@[simp] theorem State.issue_rsp (s : State) (c : Command) : (s.issue c).rsp = s.rsp := rfl
@[simp] theorem State.issue_host (s : State) (c : Command) : (s.issue c).host = s.host := rfl
@[simp] theorem State.issue_taken (s : State) (c : Command) : (s.issue c).taken = s.taken := rfl
@[simp] theorem State.issue_faultMark (s : State) (c : Command) : (s.issue c).faultMark = s.faultMark := rfl
@[simp] theorem State.issue_unanswered (s : State) (c : Command) : (s.issue c).unanswered = true := rfl
@[simp] theorem State.issue_freeCount (s : State) (c : Command) : (s.issue c).freeCount = s.freeCount := rfl

/-! ### `State.resetUnit` -/

@[simp] theorem State.resetUnit_cfg (s : State) : (s.resetUnit).cfg = s.cfg := rfl
@[simp] theorem State.resetUnit_mem (s : State) : (s.resetUnit).mem = s.mem := rfl
@[simp] theorem State.resetUnit_busy (s : State) : (s.resetUnit).busy = false := rfl
@[simp] theorem State.resetUnit_cmd (s : State) : (s.resetUnit).cmd = Command.afterReset := rfl
@[simp] theorem State.resetUnit_t (s : State) : (s.resetUnit).t = 0 := rfl
@[simp] theorem State.resetUnit_rem (s : State) : (s.resetUnit).rem = 0 := rfl
@[simp] theorem State.resetUnit_acc (s : State) : (s.resetUnit).acc = 0 := rfl
@[simp] theorem State.resetUnit_idx (s : State) : (s.resetUnit).idx = 0 := rfl
@[simp] theorem State.resetUnit_bt (s : State) : (s.resetUnit).bt = 0 := rfl
@[simp] theorem State.resetUnit_rsp (s : State) : (s.resetUnit).rsp = none := rfl
@[simp] theorem State.resetUnit_host (s : State) : (s.resetUnit).host = s.host := rfl
@[simp] theorem State.resetUnit_taken (s : State) : (s.resetUnit).taken = s.taken := rfl
@[simp] theorem State.resetUnit_faultMark (s : State) : (s.resetUnit).faultMark = s.faultMark := rfl
@[simp] theorem State.resetUnit_unanswered (s : State) : (s.resetUnit).unanswered = s.unanswered := rfl
@[simp] theorem State.resetUnit_freeCount (s : State) : (s.resetUnit).freeCount = s.freeCount := rfl

/-! ### `State.spoilByte` -/

@[simp] theorem State.spoilByte_cfg (s : State) (a : Nat) : (s.spoilByte a).cfg = s.cfg := rfl
@[simp] theorem State.spoilByte_busy (s : State) (a : Nat) : (s.spoilByte a).busy = s.busy := rfl
@[simp] theorem State.spoilByte_cmd (s : State) (a : Nat) : (s.spoilByte a).cmd = s.cmd := rfl
@[simp] theorem State.spoilByte_t (s : State) (a : Nat) : (s.spoilByte a).t = s.t := rfl
@[simp] theorem State.spoilByte_rem (s : State) (a : Nat) : (s.spoilByte a).rem = s.rem := rfl
@[simp] theorem State.spoilByte_acc (s : State) (a : Nat) : (s.spoilByte a).acc = s.acc := rfl
@[simp] theorem State.spoilByte_idx (s : State) (a : Nat) : (s.spoilByte a).idx = s.idx := rfl
@[simp] theorem State.spoilByte_bt (s : State) (a : Nat) : (s.spoilByte a).bt = s.bt := rfl
@[simp] theorem State.spoilByte_rsp (s : State) (a : Nat) : (s.spoilByte a).rsp = s.rsp := rfl
@[simp] theorem State.spoilByte_host (s : State) (a : Nat) : (s.spoilByte a).host = s.host := rfl
@[simp] theorem State.spoilByte_taken (s : State) (a : Nat) : (s.spoilByte a).taken = s.taken := rfl
@[simp] theorem State.spoilByte_faultMark (s : State) (a : Nat) : (s.spoilByte a).faultMark = s.faultMark := rfl
@[simp] theorem State.spoilByte_unanswered (s : State) (a : Nat) : (s.spoilByte a).unanswered = s.unanswered := rfl
@[simp] theorem State.spoilByte_mem (s : State) (a : Nat) : (s.spoilByte a).mem = if s.mayAccess a then s.mem.write a (Config.abandonedByte s.freeCount (s.mem.read a)) else s.mem := rfl
@[simp] theorem State.spoilByte_freeCount (s : State) (a : Nat) : (s.spoilByte a).freeCount = s.freeCount + 1 := rfl

/-! ### `State.latchWord` -/

@[simp] theorem State.latchWord_cfg (s : State) (cw : Byte) : (s.latchWord cw).cfg = s.cfg := rfl
@[simp] theorem State.latchWord_mem (s : State) (cw : Byte) : (s.latchWord cw).mem = s.mem := rfl
@[simp] theorem State.latchWord_busy (s : State) (cw : Byte) : (s.latchWord cw).busy = true := rfl
@[simp] theorem State.latchWord_cmd (s : State) (cw : Byte) : (s.latchWord cw).cmd = { s.cmd with cw := cw } := rfl
@[simp] theorem State.latchWord_t (s : State) (cw : Byte) : (s.latchWord cw).t = s.t := rfl
@[simp] theorem State.latchWord_rem (s : State) (cw : Byte) : (s.latchWord cw).rem = s.rem := rfl
@[simp] theorem State.latchWord_acc (s : State) (cw : Byte) : (s.latchWord cw).acc = s.acc := rfl
@[simp] theorem State.latchWord_idx (s : State) (cw : Byte) : (s.latchWord cw).idx = s.idx := rfl
@[simp] theorem State.latchWord_bt (s : State) (cw : Byte) : (s.latchWord cw).bt = s.bt := rfl
@[simp] theorem State.latchWord_rsp (s : State) (cw : Byte) : (s.latchWord cw).rsp = none := rfl
@[simp] theorem State.latchWord_host (s : State) (cw : Byte) : (s.latchWord cw).host = s.host.dropWhile HostEvent.isReset := rfl
@[simp] theorem State.latchWord_taken (s : State) (cw : Byte) : (s.latchWord cw).taken = s.taken := rfl
@[simp] theorem State.latchWord_faultMark (s : State) (cw : Byte) : (s.latchWord cw).faultMark = s.faultMark := rfl
@[simp] theorem State.latchWord_unanswered (s : State) (cw : Byte) : (s.latchWord cw).unanswered = true := rfl
@[simp] theorem State.latchWord_freeCount (s : State) (cw : Byte) : (s.latchWord cw).freeCount = s.freeCount := rfl

/-! ### `State.extractEffect` -/

@[simp] theorem State.extractEffect_cfg (s : State) (e : Endian) (sz : Size) : (State.extractEffect e sz s).cfg = s.cfg := rfl
@[simp] theorem State.extractEffect_mem (s : State) (e : Endian) (sz : Size) : (State.extractEffect e sz s).mem = s.mem := rfl
@[simp] theorem State.extractEffect_busy (s : State) (e : Endian) (sz : Size) : (State.extractEffect e sz s).busy = false := rfl
@[simp] theorem State.extractEffect_cmd (s : State) (e : Endian) (sz : Size) : (State.extractEffect e sz s).cmd = s.cmd := rfl
@[simp] theorem State.extractEffect_t (s : State) (e : Endian) (sz : Size) : (State.extractEffect e sz s).t = swapIf s.cfg.native e sz (nativeVal s.cfg.native (s.mem.readBytes s.cmd.ptr (sizeBytes sz))) := rfl
@[simp] theorem State.extractEffect_rem (s : State) (e : Endian) (sz : Size) : (State.extractEffect e sz s).rem = s.rem := rfl
@[simp] theorem State.extractEffect_acc (s : State) (e : Endian) (sz : Size) : (State.extractEffect e sz s).acc = s.acc := rfl
@[simp] theorem State.extractEffect_idx (s : State) (e : Endian) (sz : Size) : (State.extractEffect e sz s).idx = s.idx := rfl
@[simp] theorem State.extractEffect_bt (s : State) (e : Endian) (sz : Size) : (State.extractEffect e sz s).bt = s.bt := rfl
@[simp] theorem State.extractEffect_rsp (s : State) (e : Endian) (sz : Size) : (State.extractEffect e sz s).rsp = some { val := swapIf s.cfg.native e sz (nativeVal s.cfg.native (s.mem.readBytes s.cmd.ptr (sizeBytes sz))), cnt := BitVec.ofNat 8 (sizeBytes sz), err := false } := rfl
@[simp] theorem State.extractEffect_host (s : State) (e : Endian) (sz : Size) : (State.extractEffect e sz s).host = s.host := rfl
@[simp] theorem State.extractEffect_taken (s : State) (e : Endian) (sz : Size) : (State.extractEffect e sz s).taken = s.taken := rfl
@[simp] theorem State.extractEffect_faultMark (s : State) (e : Endian) (sz : Size) : (State.extractEffect e sz s).faultMark = s.faultMark := rfl
@[simp] theorem State.extractEffect_unanswered (s : State) (e : Endian) (sz : Size) : (State.extractEffect e sz s).unanswered = s.unanswered := rfl
@[simp] theorem State.extractEffect_freeCount (s : State) (e : Endian) (sz : Size) : (State.extractEffect e sz s).freeCount = s.freeCount := rfl

/-! ### `State.appendEffect` -/

@[simp] theorem State.appendEffect_cfg (s : State) (e : Endian) (sz : Size) : (State.appendEffect e sz s).cfg = s.cfg := rfl
@[simp] theorem State.appendEffect_mem (s : State) (e : Endian) (sz : Size) : (State.appendEffect e sz s).mem = s.mem.writeBytes s.cmd.ptr (s.appendedBytes e sz) := rfl
@[simp] theorem State.appendEffect_busy (s : State) (e : Endian) (sz : Size) : (State.appendEffect e sz s).busy = false := rfl
@[simp] theorem State.appendEffect_cmd (s : State) (e : Endian) (sz : Size) : (State.appendEffect e sz s).cmd = s.cmd := rfl
@[simp] theorem State.appendEffect_t (s : State) (e : Endian) (sz : Size) : (State.appendEffect e sz s).t = swapIf s.cfg.native e sz (s.source sz) := rfl
@[simp] theorem State.appendEffect_rem (s : State) (e : Endian) (sz : Size) : (State.appendEffect e sz s).rem = s.rem := rfl
@[simp] theorem State.appendEffect_acc (s : State) (e : Endian) (sz : Size) : (State.appendEffect e sz s).acc = s.acc := rfl
@[simp] theorem State.appendEffect_idx (s : State) (e : Endian) (sz : Size) : (State.appendEffect e sz s).idx = s.idx := rfl
@[simp] theorem State.appendEffect_bt (s : State) (e : Endian) (sz : Size) : (State.appendEffect e sz s).bt = s.bt := rfl
@[simp] theorem State.appendEffect_rsp (s : State) (e : Endian) (sz : Size) : (State.appendEffect e sz s).rsp = some { val := 0, cnt := BitVec.ofNat 8 (sizeBytes sz), err := false } := rfl
@[simp] theorem State.appendEffect_host (s : State) (e : Endian) (sz : Size) : (State.appendEffect e sz s).host = s.host := rfl
@[simp] theorem State.appendEffect_taken (s : State) (e : Endian) (sz : Size) : (State.appendEffect e sz s).taken = s.taken := rfl
@[simp] theorem State.appendEffect_faultMark (s : State) (e : Endian) (sz : Size) : (State.appendEffect e sz s).faultMark = s.faultMark := rfl
@[simp] theorem State.appendEffect_unanswered (s : State) (e : Endian) (sz : Size) : (State.appendEffect e sz s).unanswered = s.unanswered := rfl
@[simp] theorem State.appendEffect_freeCount (s : State) (e : Endian) (sz : Size) : (State.appendEffect e sz s).freeCount = s.freeCount := rfl

/-! ### `State.vencStart` -/

@[simp] theorem State.vencStart_cfg (s : State) (sz : Size) : (s.vencStart sz).cfg = s.cfg := rfl
@[simp] theorem State.vencStart_mem (s : State) (sz : Size) : (s.vencStart sz).mem = s.mem := rfl
@[simp] theorem State.vencStart_busy (s : State) (sz : Size) : (s.vencStart sz).busy = s.busy := rfl
@[simp] theorem State.vencStart_cmd (s : State) (sz : Size) : (s.vencStart sz).cmd = s.cmd := rfl
@[simp] theorem State.vencStart_t (s : State) (sz : Size) : (s.vencStart sz).t = s.t := rfl
@[simp] theorem State.vencStart_rem (s : State) (sz : Size) : (s.vencStart sz).rem = s.source sz := rfl
@[simp] theorem State.vencStart_acc (s : State) (sz : Size) : (s.vencStart sz).acc = s.acc := rfl
@[simp] theorem State.vencStart_idx (s : State) (sz : Size) : (s.vencStart sz).idx = 0 := rfl
@[simp] theorem State.vencStart_bt (s : State) (sz : Size) : (s.vencStart sz).bt = s.bt := rfl
@[simp] theorem State.vencStart_rsp (s : State) (sz : Size) : (s.vencStart sz).rsp = s.rsp := rfl
@[simp] theorem State.vencStart_host (s : State) (sz : Size) : (s.vencStart sz).host = s.host := rfl
@[simp] theorem State.vencStart_taken (s : State) (sz : Size) : (s.vencStart sz).taken = s.taken := rfl
@[simp] theorem State.vencStart_faultMark (s : State) (sz : Size) : (s.vencStart sz).faultMark = s.faultMark := rfl
@[simp] theorem State.vencStart_unanswered (s : State) (sz : Size) : (s.vencStart sz).unanswered = s.unanswered := rfl
@[simp] theorem State.vencStart_freeCount (s : State) (sz : Size) : (s.vencStart sz).freeCount = s.freeCount := rfl

/-! ### `State.vencEmit` -/

@[simp] theorem State.vencEmit_cfg (s : State) : (s.vencEmit).cfg = s.cfg := rfl
@[simp] theorem State.vencEmit_mem (s : State) : (s.vencEmit).mem = s.mem.write (s.cmd.ptr + s.idx.toNat) (continuationByte s.rem) := rfl
@[simp] theorem State.vencEmit_busy (s : State) : (s.vencEmit).busy = s.busy := rfl
@[simp] theorem State.vencEmit_cmd (s : State) : (s.vencEmit).cmd = s.cmd := rfl
@[simp] theorem State.vencEmit_t (s : State) : (s.vencEmit).t = s.t := rfl
@[simp] theorem State.vencEmit_rem (s : State) : (s.vencEmit).rem = s.rem >>> 7 := rfl
@[simp] theorem State.vencEmit_acc (s : State) : (s.vencEmit).acc = s.acc := rfl
@[simp] theorem State.vencEmit_idx (s : State) : (s.vencEmit).idx = s.idx + 1 := rfl
@[simp] theorem State.vencEmit_bt (s : State) : (s.vencEmit).bt = s.bt := rfl
@[simp] theorem State.vencEmit_rsp (s : State) : (s.vencEmit).rsp = s.rsp := rfl
@[simp] theorem State.vencEmit_host (s : State) : (s.vencEmit).host = s.host := rfl
@[simp] theorem State.vencEmit_taken (s : State) : (s.vencEmit).taken = s.taken := rfl
@[simp] theorem State.vencEmit_faultMark (s : State) : (s.vencEmit).faultMark = s.faultMark := rfl
@[simp] theorem State.vencEmit_unanswered (s : State) : (s.vencEmit).unanswered = s.unanswered := rfl
@[simp] theorem State.vencEmit_freeCount (s : State) : (s.vencEmit).freeCount = s.freeCount := rfl

/-! ### `State.vencFinish` -/

@[simp] theorem State.vencFinish_cfg (s : State) : (s.vencFinish).cfg = s.cfg := rfl
@[simp] theorem State.vencFinish_mem (s : State) : (s.vencFinish).mem = s.mem.write (s.cmd.ptr + s.idx.toNat) (finalByte s.rem) := rfl
@[simp] theorem State.vencFinish_busy (s : State) : (s.vencFinish).busy = false := rfl
@[simp] theorem State.vencFinish_cmd (s : State) : (s.vencFinish).cmd = s.cmd := rfl
@[simp] theorem State.vencFinish_t (s : State) : (s.vencFinish).t = s.t := rfl
@[simp] theorem State.vencFinish_rem (s : State) : (s.vencFinish).rem = s.rem := rfl
@[simp] theorem State.vencFinish_acc (s : State) : (s.vencFinish).acc = s.acc := rfl
@[simp] theorem State.vencFinish_idx (s : State) : (s.vencFinish).idx = s.idx + 1 := rfl
@[simp] theorem State.vencFinish_bt (s : State) : (s.vencFinish).bt = s.bt := rfl
@[simp] theorem State.vencFinish_rsp (s : State) : (s.vencFinish).rsp = some { val := 0, cnt := s.idx + 1, err := false } := rfl
@[simp] theorem State.vencFinish_host (s : State) : (s.vencFinish).host = s.host := rfl
@[simp] theorem State.vencFinish_taken (s : State) : (s.vencFinish).taken = s.taken := rfl
@[simp] theorem State.vencFinish_faultMark (s : State) : (s.vencFinish).faultMark = s.faultMark := rfl
@[simp] theorem State.vencFinish_unanswered (s : State) : (s.vencFinish).unanswered = s.unanswered := rfl
@[simp] theorem State.vencFinish_freeCount (s : State) : (s.vencFinish).freeCount = s.freeCount := rfl

/-! ### `State.vdecStart` -/

@[simp] theorem State.vdecStart_cfg (s : State) : (s.vdecStart).cfg = s.cfg := rfl
@[simp] theorem State.vdecStart_mem (s : State) : (s.vdecStart).mem = s.mem := rfl
@[simp] theorem State.vdecStart_busy (s : State) : (s.vdecStart).busy = s.busy := rfl
@[simp] theorem State.vdecStart_cmd (s : State) : (s.vdecStart).cmd = s.cmd := rfl
@[simp] theorem State.vdecStart_t (s : State) : (s.vdecStart).t = s.t := rfl
@[simp] theorem State.vdecStart_rem (s : State) : (s.vdecStart).rem = s.rem := rfl
@[simp] theorem State.vdecStart_acc (s : State) : (s.vdecStart).acc = 0 := rfl
@[simp] theorem State.vdecStart_idx (s : State) : (s.vdecStart).idx = 0 := rfl
@[simp] theorem State.vdecStart_bt (s : State) : (s.vdecStart).bt = s.bt := rfl
@[simp] theorem State.vdecStart_rsp (s : State) : (s.vdecStart).rsp = s.rsp := rfl
@[simp] theorem State.vdecStart_host (s : State) : (s.vdecStart).host = s.host := rfl
@[simp] theorem State.vdecStart_taken (s : State) : (s.vdecStart).taken = s.taken := rfl
@[simp] theorem State.vdecStart_faultMark (s : State) : (s.vdecStart).faultMark = s.faultMark := rfl
@[simp] theorem State.vdecStart_unanswered (s : State) : (s.vdecStart).unanswered = s.unanswered := rfl
@[simp] theorem State.vdecStart_freeCount (s : State) : (s.vdecStart).freeCount = s.freeCount := rfl

/-! ### `State.vdecRead` -/

@[simp] theorem State.vdecRead_cfg (s : State) (sz : Size) : (s.vdecRead sz).cfg = s.cfg := rfl
@[simp] theorem State.vdecRead_mem (s : State) (sz : Size) : (s.vdecRead sz).mem = s.mem := rfl
@[simp] theorem State.vdecRead_busy (s : State) (sz : Size) : (s.vdecRead sz).busy = s.busy := rfl
@[simp] theorem State.vdecRead_cmd (s : State) (sz : Size) : (s.vdecRead sz).cmd = s.cmd := rfl
@[simp] theorem State.vdecRead_t (s : State) (sz : Size) : (s.vdecRead sz).t = s.t := rfl
@[simp] theorem State.vdecRead_rem (s : State) (sz : Size) : (s.vdecRead sz).rem = s.rem := rfl
@[simp] theorem State.vdecRead_acc (s : State) (sz : Size) : (s.vdecRead sz).acc = s.acc ||| placedGroup sz (s.mem.read s.codecAddr) s.idx.toNat := rfl
@[simp] theorem State.vdecRead_idx (s : State) (sz : Size) : (s.vdecRead sz).idx = s.idx + 1 := rfl
@[simp] theorem State.vdecRead_bt (s : State) (sz : Size) : (s.vdecRead sz).bt = s.mem.read s.codecAddr := rfl
@[simp] theorem State.vdecRead_rsp (s : State) (sz : Size) : (s.vdecRead sz).rsp = s.rsp := rfl
@[simp] theorem State.vdecRead_host (s : State) (sz : Size) : (s.vdecRead sz).host = s.host := rfl
@[simp] theorem State.vdecRead_taken (s : State) (sz : Size) : (s.vdecRead sz).taken = s.taken := rfl
@[simp] theorem State.vdecRead_faultMark (s : State) (sz : Size) : (s.vdecRead sz).faultMark = s.faultMark := rfl
@[simp] theorem State.vdecRead_unanswered (s : State) (sz : Size) : (s.vdecRead sz).unanswered = s.unanswered := rfl
@[simp] theorem State.vdecRead_freeCount (s : State) (sz : Size) : (s.vdecRead sz).freeCount = s.freeCount := rfl

/-! ### `State.vdecFinish` -/

@[simp] theorem State.vdecFinish_cfg (s : State) : (s.vdecFinish).cfg = s.cfg := rfl
@[simp] theorem State.vdecFinish_mem (s : State) : (s.vdecFinish).mem = s.mem := rfl
@[simp] theorem State.vdecFinish_busy (s : State) : (s.vdecFinish).busy = false := rfl
@[simp] theorem State.vdecFinish_cmd (s : State) : (s.vdecFinish).cmd = s.cmd := rfl
@[simp] theorem State.vdecFinish_t (s : State) : (s.vdecFinish).t = s.t := rfl
@[simp] theorem State.vdecFinish_rem (s : State) : (s.vdecFinish).rem = s.rem := rfl
@[simp] theorem State.vdecFinish_acc (s : State) : (s.vdecFinish).acc = s.acc := rfl
@[simp] theorem State.vdecFinish_idx (s : State) : (s.vdecFinish).idx = s.idx := rfl
@[simp] theorem State.vdecFinish_bt (s : State) : (s.vdecFinish).bt = s.bt := rfl
@[simp] theorem State.vdecFinish_rsp (s : State) : (s.vdecFinish).rsp = some { val := s.acc, cnt := s.idx, err := false } := rfl
@[simp] theorem State.vdecFinish_host (s : State) : (s.vdecFinish).host = s.host := rfl
@[simp] theorem State.vdecFinish_taken (s : State) : (s.vdecFinish).taken = s.taken := rfl
@[simp] theorem State.vdecFinish_faultMark (s : State) : (s.vdecFinish).faultMark = s.faultMark := rfl
@[simp] theorem State.vdecFinish_unanswered (s : State) : (s.vdecFinish).unanswered = s.unanswered := rfl
@[simp] theorem State.vdecFinish_freeCount (s : State) : (s.vdecFinish).freeCount = s.freeCount := rfl

/-! ### `State.reset` -/

@[simp] theorem State.reset_mem : State.reset.mem = [] := rfl
@[simp] theorem State.reset_busy : State.reset.busy = false := rfl
@[simp] theorem State.reset_rsp : State.reset.rsp = none := rfl
@[simp] theorem State.reset_host : State.reset.host = [] := rfl
@[simp] theorem State.reset_faultMark : State.reset.faultMark = false := rfl
@[simp] theorem State.reset_unanswered : State.reset.unanswered = false := rfl

end Sys2Proof.Machine
end

