-- ==== Sys2Proof/Laws/Ops.lean ====
section
/-! SUPPORT. What each shared operation can do, said once: the region check, the guarded commands, the loops of the codec,
and one step of the machine. Later proofs cite these and do not unfold the operations. -/

namespace Sys2Proof.Machine

/-! ### The region check -/

/-- No required address offends when all may be accessed. -/
theorem State.firstOffending_none {s : State} {k a : Nat} :
    s.firstOffending k a = none ↔ s.mayAccessRange a k := by
  induction k generalizing a with
  | zero => exact ⟨fun _ j hj => absurd hj (Nat.not_lt_zero j), fun _ => rfl⟩
  | succ k ih =>
    simp only [State.firstOffending]
    constructor
    · intro h j hj
      split at h
      · next h0 =>
        cases j with
        | zero => simpa using h0
        | succ j => have := ih.mp h j (by omega); simpa [Nat.add_assoc, Nat.add_comm 1 j] using this
      · cases h
    · intro h
      have h0 : s.mayAccess a = true := by simpa using h 0 (by omega)
      rw [if_pos h0]
      exact ih.mpr fun j hj => by simpa [Nat.add_assoc, Nat.add_comm 1 j] using h (j + 1) (by omega)

/-- The offending address is the lowest one (R146). -/
theorem State.firstOffending_some {s : State} {k a x : Nat} :
    s.firstOffending k a = some x ↔
      ∃ j, j < k ∧ x = a + j ∧ s.mayAccessRange a j ∧ s.mayAccess (a + j) = false := by
  induction k generalizing a with
  | zero => simp [State.firstOffending]
  | succ k ih =>
    simp only [State.firstOffending]
    split
    · next h0 =>
      rw [ih]
      constructor
      · rintro ⟨j, hj, rfl, hr, hb⟩
        refine ⟨j + 1, by omega, by omega, fun i hi => ?_, by rw [← hb]; congr 1; omega⟩
        cases i with
        | zero => simpa using h0
        | succ i => have := hr i (by omega); simpa [Nat.add_assoc, Nat.add_comm 1 i] using this
      · rintro ⟨j, hj, rfl, hr, hb⟩
        cases j with
        | zero => simp [h0] at hb
        | succ j =>
          refine ⟨j, by omega, by omega, fun i hi => ?_, by rw [← hb]; congr 1; omega⟩
          have := hr (i + 1) (by omega); rw [← this]; congr 1; omega
    · next h0 =>
      constructor
      · intro h
        cases h
        exact ⟨0, by omega, rfl, fun i hi => absurd hi (Nat.not_lt_zero i), by simpa using h0⟩
      · rintro ⟨j, hj, rfl, hr, hb⟩
        cases j with
        | zero => simp
        | succ j => exact absurd (by simpa using hr 0 (by omega)) h0

/-- A command whose bytes may all be accessed has its effect. -/
theorem State.withBuffer_next {s : State} {k : Nat} (effect : State → State) (h : s.mayAccessRange s.cmd.ptr k) :
    s.withBuffer k effect = .next (effect s) := by
  simp only [State.withBuffer, State.firstOffending_none.mpr h]

/-- A command one of whose bytes may not be accessed stops at the lowest such address. -/
theorem State.withBuffer_fault {s : State} {k j : Nat} (effect : State → State) (hj : j < k)
    (hr : s.mayAccessRange s.cmd.ptr j) (hb : s.mayAccess (s.cmd.ptr + j) = false) :
    s.withBuffer k effect = .fault (.bufferPrecondition s.cmd (s.cmd.ptr + j)) := by
  simp only [State.withBuffer, State.firstOffending_some.mpr ⟨j, hj, rfl, hr, hb⟩]

/-- What a guarded command can do. -/
theorem State.withBuffer_cases {s : State} (k : Nat) (effect : State → State) :
    (s.mayAccessRange s.cmd.ptr k ∧ s.withBuffer k effect = .next (effect s)) ∨
    (∃ j, j < k ∧ s.mayAccess (s.cmd.ptr + j) = false ∧
      s.withBuffer k effect = .fault (.bufferPrecondition s.cmd (s.cmd.ptr + j))) := by
  cases h : s.firstOffending k s.cmd.ptr with
  | none =>
    have hr := State.firstOffending_none.mp h
    exact Or.inl ⟨hr, State.withBuffer_next effect hr⟩
  | some x =>
    obtain ⟨j, hj, rfl, hr, hb⟩ := State.firstOffending_some.mp h
    exact Or.inr ⟨j, hj, hb, State.withBuffer_fault effect hj hr hb⟩

/-- If a guarded command answers a next state, its bytes may all be accessed and the state is its effect. -/
theorem State.withBuffer_eq_next {s t : State} {k : Nat} {effect : State → State}
    (h : s.withBuffer k effect = .next t) : s.mayAccessRange s.cmd.ptr k ∧ t = effect s := by
  rcases State.withBuffer_cases (s := s) k effect with ⟨hr, h'⟩ | ⟨j, _, _, h'⟩
  · rw [h'] at h; cases h; exact ⟨hr, rfl⟩
  · rw [h'] at h; cases h

/-! ### The bytes of an abandoned command -/

/-- Turning `k` bytes into free values changes only memory, and uses `k` of them. -/
theorem State.spoil_frame (k a : Nat) (s : State) :
    State.spoil k a s = { s with mem := (State.spoil k a s).mem, freeCount := s.freeCount + k } := by
  induction k generalizing a s with
  | zero => rfl
  | succ k ih =>
    simp only [State.spoil]
    rw [ih]
    simp only [State.spoilByte_cfg, State.spoilByte_busy, State.spoilByte_cmd, State.spoilByte_t, State.spoilByte_rem,
      State.spoilByte_acc, State.spoilByte_idx, State.spoilByte_bt, State.spoilByte_rsp, State.spoilByte_host,
      State.spoilByte_taken, State.spoilByte_faultMark, State.spoilByte_unanswered, State.spoilByte_freeCount,
      Nat.add_assoc, Nat.add_comm 1 k]

/-- Each of the `k` bytes that may be accessed holds its own free value, and every other byte is as before. -/
theorem State.read_spoil (k a : Nat) (s : State) (x : Nat) :
    (State.spoil k a s).mem.read x =
      if a ≤ x ∧ x < a + k ∧ s.mayAccess x = true then
        Config.abandonedByte (s.freeCount + (x - a)) (s.mem.read x)
      else s.mem.read x := by
  induction k generalizing a s with
  | zero => rw [if_neg (by omega)]; rfl
  | succ k ih =>
    have hacc : ∀ y, (s.spoilByte a).mayAccess y = s.mayAccess y := fun _ => rfl
    have hread : (s.spoilByte a).mem.read x =
        if a = x ∧ s.mayAccess x = true then Config.abandonedByte s.freeCount (s.mem.read x) else s.mem.read x := by
      rw [State.spoilByte_mem]
      by_cases hax : a = x
      · subst hax
        by_cases hm : s.mayAccess a = true <;> simp [hm]
      · by_cases hm : s.mayAccess a = true <;> simp [hm, hax, Ne.symm hax]
    simp only [State.spoil]
    rw [ih, hacc, hread, State.spoilByte_freeCount]
    by_cases hax : a = x
    · subst hax
      rw [if_neg (by omega)]
      by_cases hm : s.mayAccess a = true <;> simp [hm]
    · rw [if_neg (show ¬(a = x ∧ s.mayAccess x = true) from fun h => hax h.1)]
      by_cases hin : a + 1 ≤ x ∧ x < a + 1 + k ∧ s.mayAccess x = true
      · rw [if_pos hin, if_pos ⟨by omega, by omega, hin.2.2⟩]
        congr 1
        omega
      · rw [if_neg hin, if_neg (fun h => hin ⟨by omega, by omega, h.2.2⟩)]

/-- Free values keep the canonical form of memory. -/
theorem State.wf_spoil (k a : Nat) {s : State} (h : s.mem.wf = true) : (State.spoil k a s).mem.wf = true := by
  induction k generalizing a s with
  | zero => exact h
  | succ k ih =>
    refine ih (a + 1) ?_
    rw [State.spoilByte_mem]
    split
    · exact Memory.wf_write _ _ h
    · exact h

/-- Free values stay inside the buffer space. -/
theorem State.within_spoil (k a : Nat) {s : State} (h : s.mem.within s.cfg.aw = true) :
    (State.spoil k a s).mem.within s.cfg.aw = true := by
  induction k generalizing a s with
  | zero => exact h
  | succ k ih =>
    refine ih (a + 1) (s := s.spoilByte a) ?_
    rw [State.spoilByte_mem, State.spoilByte_cfg]
    split
    · next hm =>
      refine Memory.within_write _ ?_ h
      simp only [State.mayAccess, Bool.and_eq_true, decide_eq_true_eq] at hm
      exact hm.1
    · exact h

/-! ### The loops of the codec -/

/-- The decode loop changes only `acc`, `idx` and `bt`. -/
theorem State.vdecLoop_frame {sz : Size} {k : Nat} {s t : State} (h : State.vdecLoop sz k s = .next t) :
    t = { s with acc := t.acc, idx := t.idx, bt := t.bt } := by
  induction k generalizing s with
  | zero => simp only [State.vdecLoop] at h; cases h; rfl
  | succ k ih =>
    simp only [State.vdecLoop] at h
    split at h
    · split at h
      · rw [ih h]; rfl
      · cases h; rfl
    · cases h

/-- The decode loop never refuses. -/
theorem State.vdecLoop_not_refused {sz : Size} {k : Nat} {s : State} {r : Refusal} :
    State.vdecLoop sz k s ≠ .refused r := by
  induction k generalizing s with
  | zero => simp [State.vdecLoop]
  | succ k ih =>
    simp only [State.vdecLoop]
    split
    · split
      · exact ih
      · simp
    · simp

/-- The encode loop changes only `mem`, `rem` and `idx`. -/
theorem State.vencLoop_frame (k : Nat) (s : State) :
    State.vencLoop k s =
      { s with mem := (State.vencLoop k s).mem, rem := (State.vencLoop k s).rem, idx := (State.vencLoop k s).idx } := by
  induction k generalizing s with
  | zero => rfl
  | succ k ih =>
    simp only [State.vencLoop]
    split
    · rw [ih]; rfl
    · rfl

/-! ### One step -/

/-- Everything a step that answers a next state can have done. -/
theorem step_cases {s t : State} (h : step s = .next t) :
    (s.turn = .execute ∧ ∃ i, decode s.latchedWord = .ok i ∧ exec i s = .next t) ∨
    (s.turn = .execute ∧ (∃ c, decode s.latchedWord = .error c) ∧ t = s.raiseIllegalCommand) ∨
    (∃ k, s.turn = .abandon k ∧ s.dropEvent.abandon k = .next t) ∨
    (s.turn = .reset ∧ t = s.dropEvent.resetUnit) ∨
    (∃ r, s.turn = .take r ∧ t = s.takeResponse r) ∨
    (∃ c, s.turn = .issue c ∧ t = s.dropEvent.issue c) ∨
    (∃ a b, s.turn = .store a b ∧ s.dropEvent.hostStore a b = .next t) ∨
    (s.turn = .wait ∧ t = s) := by
  unfold step at h
  cases ht : s.turn with
  | execute =>
    rw [ht] at h
    simp only [State.executeLatched] at h
    cases hd : decode s.latchedWord with
    | ok i => rw [hd] at h; exact Or.inl ⟨rfl, i, rfl, h⟩
    | error c => rw [hd] at h; cases h; exact Or.inr (Or.inl ⟨rfl, ⟨c, rfl⟩, rfl⟩)
  | abandon k => rw [ht] at h; exact Or.inr (Or.inr (Or.inl ⟨k, rfl, h⟩))
  | reset => rw [ht] at h; cases h; exact Or.inr (Or.inr (Or.inr (Or.inl ⟨rfl, rfl⟩)))
  | take r => rw [ht] at h; cases h; exact Or.inr (Or.inr (Or.inr (Or.inr (Or.inl ⟨r, rfl, rfl⟩))))
  | issue c =>
    rw [ht] at h; cases h
    exact Or.inr (Or.inr (Or.inr (Or.inr (Or.inr (Or.inl ⟨c, rfl, rfl⟩)))))
  | store a b =>
    rw [ht] at h
    exact Or.inr (Or.inr (Or.inr (Or.inr (Or.inr (Or.inr (Or.inl ⟨a, b, rfl, h⟩))))))
  | wait =>
    rw [ht] at h; cases h
    exact Or.inr (Or.inr (Or.inr (Or.inr (Or.inr (Or.inr (Or.inr ⟨rfl, rfl⟩))))))

/-- If the host's store answers a next state, the address exists and its byte is the only change. -/
theorem State.hostStore_eq_next {s t : State} {a : Nat} {b : Byte} (h : s.hostStore a b = .next t) :
    a < 2 ^ s.cfg.aw ∧ t = { s with mem := s.mem.write a b } := by
  unfold State.hostStore at h
  split at h
  · next ha => cases h; exact ⟨ha, rfl⟩
  · cases h

/-- If an abandoned command answers a next state, the unit is reset, the first `k` of its writes have been performed, and
its write set holds free values. -/
theorem State.abandon_eq_next {s t : State} {k : Nat} (h : s.abandon k = .next t) :
    ((∃ c, decode s.latchedWord = .error c) ∧ t = s.resetUnit) ∨
    (∃ i, decode s.latchedWord = .ok i ∧ s.faultWithin i k = none ∧
      t = (State.spoil (writeSetBytes i) s.cmd.ptr
        { s with mem := s.mem.writeBytes s.cmd.ptr ((s.commandWrites i).take k) }).resetUnit) := by
  unfold State.abandon at h
  cases hd : decode s.latchedWord with
  | error c => rw [hd] at h; cases h; exact Or.inl ⟨⟨c, rfl⟩, rfl⟩
  | ok i =>
    rw [hd] at h
    cases hf : s.faultWithin i k with
    | some r => simp only [hf] at h; cases h
    | none => simp only [hf] at h; cases h; exact Or.inr ⟨i, rfl, hf, rfl⟩

/-- Whatever an abandoned command had done, it leaves the unit reset and changes only memory and the count of free values
beside. -/
theorem State.abandon_frame {s t : State} {k : Nat} (h : s.abandon k = .next t) :
    t = { s.resetUnit with mem := t.mem, freeCount := t.freeCount } := by
  rcases State.abandon_eq_next h with ⟨_, rfl⟩ | ⟨i, _, _, rfl⟩
  · rfl
  · rw [State.spoil_frame]
    rfl

end Sys2Proof.Machine
end

