-- ==== Sys2Proof/Laws/PerInstr.lean ====
section
/-! SUPPORT. The per-instruction family `WordShape`: what the syntax of each command says about its word. -/

namespace Sys2Proof.Laws

/-- The word of the command is one of the 28 of R56, its bits 7:6 are 00 (R50), and the shape names the command back. -/
def WordShape.Statement (i : Instr) : Prop :=
  legalWord (encode i) = true ∧ fieldZ (encode i) = 0#2 ∧ i.shape.instr = i

theorem WordShape.rev8 : WordShape.Statement .rev8 := ⟨by decide, by decide, rfl⟩
theorem WordShape.rev16 : WordShape.Statement .rev16 := ⟨by decide, by decide, rfl⟩
theorem WordShape.rev32 : WordShape.Statement .rev32 := ⟨by decide, by decide, rfl⟩
theorem WordShape.rev64 : WordShape.Statement .rev64 := ⟨by decide, by decide, rfl⟩
theorem WordShape.extLe8 : WordShape.Statement .extLe8 := ⟨by decide, by decide, rfl⟩
theorem WordShape.extLe16 : WordShape.Statement .extLe16 := ⟨by decide, by decide, rfl⟩
theorem WordShape.extLe32 : WordShape.Statement .extLe32 := ⟨by decide, by decide, rfl⟩
theorem WordShape.extLe64 : WordShape.Statement .extLe64 := ⟨by decide, by decide, rfl⟩
theorem WordShape.extBe8 : WordShape.Statement .extBe8 := ⟨by decide, by decide, rfl⟩
theorem WordShape.extBe16 : WordShape.Statement .extBe16 := ⟨by decide, by decide, rfl⟩
theorem WordShape.extBe32 : WordShape.Statement .extBe32 := ⟨by decide, by decide, rfl⟩
theorem WordShape.extBe64 : WordShape.Statement .extBe64 := ⟨by decide, by decide, rfl⟩
theorem WordShape.appLe8 : WordShape.Statement .appLe8 := ⟨by decide, by decide, rfl⟩
theorem WordShape.appLe16 : WordShape.Statement .appLe16 := ⟨by decide, by decide, rfl⟩
theorem WordShape.appLe32 : WordShape.Statement .appLe32 := ⟨by decide, by decide, rfl⟩
theorem WordShape.appLe64 : WordShape.Statement .appLe64 := ⟨by decide, by decide, rfl⟩
theorem WordShape.appBe8 : WordShape.Statement .appBe8 := ⟨by decide, by decide, rfl⟩
theorem WordShape.appBe16 : WordShape.Statement .appBe16 := ⟨by decide, by decide, rfl⟩
theorem WordShape.appBe32 : WordShape.Statement .appBe32 := ⟨by decide, by decide, rfl⟩
theorem WordShape.appBe64 : WordShape.Statement .appBe64 := ⟨by decide, by decide, rfl⟩
theorem WordShape.venc8 : WordShape.Statement .venc8 := ⟨by decide, by decide, rfl⟩
theorem WordShape.venc16 : WordShape.Statement .venc16 := ⟨by decide, by decide, rfl⟩
theorem WordShape.venc32 : WordShape.Statement .venc32 := ⟨by decide, by decide, rfl⟩
theorem WordShape.venc64 : WordShape.Statement .venc64 := ⟨by decide, by decide, rfl⟩
theorem WordShape.vdec8 : WordShape.Statement .vdec8 := ⟨by decide, by decide, rfl⟩
theorem WordShape.vdec16 : WordShape.Statement .vdec16 := ⟨by decide, by decide, rfl⟩
theorem WordShape.vdec32 : WordShape.Statement .vdec32 := ⟨by decide, by decide, rfl⟩
theorem WordShape.vdec64 : WordShape.Statement .vdec64 := ⟨by decide, by decide, rfl⟩

end Sys2Proof.Laws
end

