-- ==== Sys2Proof/Laws/Varint.lean ====
section
/-! SUPPORT. The loops of the codec as lists of bytes: what a `venc` leaves in memory and in its registers, and what
the loop of a `vdec` can do. Both say once what the loop does; later proofs cite them. -/

namespace Sys2Proof.Machine

theorem vencBytes_length_pos (fuel : Nat) (rem : Word64) : 0 < (vencBytes fuel rem).length := by
  cases fuel with
  | zero => simp [vencBytes]
  | succ fuel => simp only [vencBytes]; split <;> simp

theorem vencBytes_length_le (fuel : Nat) (rem : Word64) : (vencBytes fuel rem).length ≤ fuel + 1 := by
  induction fuel generalizing rem with
  | zero => simp [vencBytes]
  | succ fuel ih =>
    simp only [vencBytes]
    split
    · simpa using ih (rem >>> 7)
    · simp

/-- The loop of R110 and its last byte write `vencBytes` in ascending order from `cmd.ptr + idx` on, shift `rem` right by 7
for each byte but the last, and count the bytes in `idx`. -/
theorem State.vencFinish_vencLoop (fuel : Nat) (s : State) (h : s.idx.toNat + fuel < 255) :
    (State.vencLoop fuel s).vencFinish =
      ({ s with
          mem := s.mem.writeBytes s.codecAddr (vencBytes fuel s.rem)
          rem := s.rem >>> (7 * ((vencBytes fuel s.rem).length - 1))
          idx := s.idx + BitVec.ofNat 8 (vencBytes fuel s.rem).length } : State).respond 0
        (s.idx + BitVec.ofNat 8 (vencBytes fuel s.rem).length) false := by
  induction fuel generalizing s with
  | zero => simp [State.vencLoop, vencBytes, State.vencFinish, State.codecAddr, Memory.writeBytes]
  | succ fuel ih =>
    simp only [State.vencLoop, vencBytes]
    split
    · have hidx : (s.idx + 1#8).toNat = s.idx.toNat + 1 := by
        rw [BitVec.toNat_add]; simp; omega
      rw [ih s.vencEmit (by show (s.idx + 1#8).toNat + fuel < 255; omega)]
      have haddr : s.vencEmit.codecAddr = s.codecAddr + 1 := by
        show s.cmd.ptr + (s.idx + 1#8).toNat = s.cmd.ptr + s.idx.toNat + 1
        omega
      have hlen := vencBytes_length_pos fuel (s.rem >>> 7)
      have hrem : s.rem >>> 7 >>> (7 * ((vencBytes fuel (s.rem >>> 7)).length - 1)) =
          s.rem >>> (7 * ((continuationByte s.rem :: vencBytes fuel (s.rem >>> 7)).length - 1)) := by
        rw [← BitVec.shiftRight_add]; congr 1; simp; omega
      have hcnt : s.idx + 1#8 + BitVec.ofNat 8 (vencBytes fuel (s.rem >>> 7)).length =
          s.idx + BitVec.ofNat 8 (continuationByte s.rem :: vencBytes fuel (s.rem >>> 7)).length := by
        rw [List.length_cons, BitVec.ofNat_add, BitVec.add_assoc, BitVec.add_comm 1#8]
      have hidx' : s.vencEmit.idx + BitVec.ofNat 8 (vencBytes fuel (s.rem >>> 7)).length =
          s.idx + BitVec.ofNat 8 (continuationByte s.rem :: vencBytes fuel (s.rem >>> 7)).length := hcnt
      simp only [haddr, State.vencEmit_rem, State.vencEmit_mem, hrem, hidx', Memory.writeBytes]
      rfl
    · simp [State.vencFinish, State.codecAddr, Memory.writeBytes]

/-- What a `venc` that completes leaves (R110). -/
theorem State.venc_effect (s : State) (sz : Size) :
    (State.vencLoop (maxlen sz) (s.vencStart sz)).vencFinish =
      ({ s with
          mem := s.mem.writeBytes s.cmd.ptr (vencBytes (maxlen sz) (s.source sz))
          rem := s.source sz >>> (7 * ((vencBytes (maxlen sz) (s.source sz)).length - 1))
          idx := BitVec.ofNat 8 (vencBytes (maxlen sz) (s.source sz)).length } : State).respond 0
        (BitVec.ofNat 8 (vencBytes (maxlen sz) (s.source sz)).length) false := by
  rw [State.vencFinish_vencLoop _ _ (by simp only [State.vencStart_idx]; cases sz <;> decide)]
  simp [State.codecAddr, State.respond]

/-- Everything the decode loop can do (R125, R135): it reads `k` bytes, one `vdecRead` each, all of them accessible and all
but the last with the continuation bit set, and ends at a byte with bit 7 clear or after `left` bytes; or it stops at the
first byte it reaches that may not be accessed. -/
theorem State.vdecLoop_cases (sz : Size) (left : Nat) (s : State) (h : s.idx.toNat + left ≤ 255) :
    (∃ k, k ≤ left ∧ (∀ j, j < k → s.mayAccess (s.codecAddr + j) = true) ∧
      (∀ j, j + 1 < k → continues (s.mem.read (s.codecAddr + j)) = true) ∧
      (k < left → 0 < k ∧ continues (s.mem.read (s.codecAddr + (k - 1))) = false) ∧
      State.vdecLoop sz left s = .next ((fun u => u.vdecRead sz)^[k] s)) ∨
    (∃ j, j < left ∧ (∀ l, l < j → s.mayAccess (s.codecAddr + l) = true) ∧
      (∀ l, l < j → continues (s.mem.read (s.codecAddr + l)) = true) ∧ s.mayAccess (s.codecAddr + j) = false ∧
      State.vdecLoop sz left s = .fault (.bufferPrecondition s.cmd (s.codecAddr + j))) := by
  induction left generalizing s with
  | zero => exact Or.inl ⟨0, by simp [State.vdecLoop]⟩
  | succ left ih =>
    have hidx : (s.vdecRead sz).idx.toNat = s.idx.toNat + 1 := by
      show (s.idx + 1#8).toNat = _
      rw [BitVec.toNat_add]
      simp
      omega
    have haddr : ∀ j, (s.vdecRead sz).codecAddr + j = s.codecAddr + (j + 1) := fun j => by
      show s.cmd.ptr + (s.vdecRead sz).idx.toNat + j = s.cmd.ptr + s.idx.toNat + (j + 1)
      omega
    have hacc : ∀ a, (s.vdecRead sz).mayAccess a = s.mayAccess a := fun _ => rfl
    simp only [State.vdecLoop]
    by_cases ha : s.mayAccess s.codecAddr = true
    · by_cases hc : continues (s.mem.read s.codecAddr) = true
      · rw [if_pos ha, if_pos hc]
        have step0 : ∀ (P : Nat → Prop) (n : Nat), P 0 → (∀ j, j < n → P (j + 1)) → ∀ j, j < n + 1 → P j := by
          intro P n h0 hs j hj
          cases j with
          | zero => exact h0
          | succ j => exact hs j (by omega)
        rcases ih (s.vdecRead sz) (by omega) with ⟨k, hk, h1, h2, h3, h4⟩ | ⟨j, hj, h1, h2, h3, h4⟩
        · simp only [haddr, hacc, State.vdecRead_mem] at h1 h2 h3
          refine Or.inl ⟨k + 1, by omega, step0 (fun j => s.mayAccess (s.codecAddr + j) = true) k ha h1, ?_, ?_, ?_⟩
          · intro j hj
            cases j with
            | zero => exact hc
            | succ j => exact h2 j (by omega)
          · intro hlt
            obtain ⟨hpos, hlast⟩ := h3 (by omega)
            exact ⟨by omega, by rw [show k + 1 - 1 = k - 1 + 1 by omega]; exact hlast⟩
          · rw [h4, Function.iterate_succ_apply]
        · simp only [haddr, hacc, State.vdecRead_mem] at h1 h2 h3 h4
          exact Or.inr ⟨j + 1, by omega, step0 (fun l => s.mayAccess (s.codecAddr + l) = true) j ha h1,
            step0 (fun l => continues (s.mem.read (s.codecAddr + l)) = true) j hc h2, h3, h4⟩
      · rw [if_pos ha, if_neg hc]
        refine Or.inl ⟨1, by omega, ?_, ?_, fun _ => ⟨by omega, by simpa using hc⟩, rfl⟩
        · intro j hj
          obtain rfl : j = 0 := by omega
          exact ha
        · intro j hj
          omega
    · rw [if_neg ha]
      exact Or.inr ⟨0, by omega, fun _ h => absurd h (by omega), fun _ h => absurd h (by omega), by simpa using ha, rfl⟩

end Sys2Proof.Machine
end

