-- ==== Sys2Proof/Tests/Slice0.lean ====
section
/-! SUPPORT. The model's own tests. Expected results are the vectors of spec/95_test_vectors.md (the docstring names the
vector), the encodings of 30_encoding.md R56, or the rule the docstring cites. After them, one witness for each
obligation that has hypotheses: a concrete state and operands that meet all of them together. -/

open Sys2Proof Sys2Proof.Machine

namespace Sys2Proof.Tests

/-! ### Small states -/

/-- A unit with a command in flight over a buffer that holds `bs` from `base` on, after reset otherwise. -/
def latched (base : Nat) (bs : List Byte) (cw : Byte) (ptr : Nat) (val : Word64) (len : Byte) : State :=
  { State.reset with
      mem := Memory.writeBytes [] base bs
      busy := true
      unanswered := true
      cmd := { cw := cw, ptr := ptr, val := val, len := len } }

/-- The same with `REGION` = 0x500 to 0x503 (vectors V146 to V161). -/
def inRegion (bs : List Byte) (cw : Byte) (ptr : Nat) (val : Word64) (len : Byte) : State :=
  { latched 0x500 bs cw ptr val len with cfg := { Config.resetParams with region := [⟨0x500, 4⟩] } }

/-- The same state with the other value of `NATIVE`. -/
def bigNative (s : State) : State := { s with cfg := { s.cfg with native := .be } }

/-- An idle unit and a host with these events. -/
def hosted (events : List HostEvent) : State := { State.reset with host := events }

/-- With either value of `NATIVE`, the next step ends the command with the response, `bs` stands from `addr` on, and the
fault mark is the response's `err`. -/
def answers (s : State) (r : Response) (addr : Nat) (bs : List Byte) : Bool :=
  [s, bigNative s].all fun u =>
    match step u with
    | .next w => !w.busy && decide (w.rsp = some r) && decide (w.mem.readBytes addr bs.length = bs) && w.mem.wf &&
        (w.faultMark == r.err)
    | .fault _ => false
    | .refused _ => false

/-- The next step stops with `BufferPrecondition` at the address. -/
def stopsAt (s : State) (addr : Nat) : Bool :=
  match step s with
  | .next _ => false
  | .fault r => decide (r = .bufferPrecondition s.cmd addr)
  | .refused _ => false

/-- The state after a command that completes. -/
def afterExec (i : Instr) (s : State) : State :=
  match exec i s with
  | .next u => u
  | .fault _ => s
  | .refused _ => s

/-- The state after a step that completes. -/
def afterStep (s : State) : State :=
  match step s with
  | .next u => u
  | .fault _ => s
  | .refused _ => s

/-! ### Well-formedness: each check refuses an ill-formed term -/

theorem test_wf_accepts : Command.wellFormed 32 ⟨0x13, 0xFFFFFFFF, 0, 255⟩ = true := by decide
theorem test_wf_refuses_high_bits : legalWord 0x40 = false := by decide
theorem test_wf_refuses_reserved_operation : legalWord 0x05 = false := by decide
theorem test_wf_refuses_tag : legalWord 0x20 = false := by decide
theorem test_wf_refuses_pointer : Command.wellFormed 32 ⟨0x13, 0x100000000, 0, 0⟩ = false := by decide
theorem test_wf_refuses_list : commandsWellFormed 32 [⟨0x00, 0, 0, 0⟩, ⟨0x3F, 0, 0, 0⟩] = false := by decide

/-! ### Decoding: every word of R56, written out bit by bit, and a word of every reserved class (V131 to V144) -/

theorem test_decode_rev8 : decode 0b00000000#8 = .ok .rev8 := by decide
theorem test_decode_rev16 : decode 0b00001000#8 = .ok .rev16 := by decide
theorem test_decode_rev32 : decode 0b00010000#8 = .ok .rev32 := by decide
theorem test_decode_rev64 : decode 0b00011000#8 = .ok .rev64 := by decide
theorem test_decode_extLe8 : decode 0b00000001#8 = .ok .extLe8 := by decide
theorem test_decode_extLe16 : decode 0b00001001#8 = .ok .extLe16 := by decide
theorem test_decode_extLe32 : decode 0b00010001#8 = .ok .extLe32 := by decide
theorem test_decode_extLe64 : decode 0b00011001#8 = .ok .extLe64 := by decide
theorem test_decode_extBe8 : decode 0b00100001#8 = .ok .extBe8 := by decide
theorem test_decode_extBe16 : decode 0b00101001#8 = .ok .extBe16 := by decide
theorem test_decode_extBe32 : decode 0b00110001#8 = .ok .extBe32 := by decide
theorem test_decode_extBe64 : decode 0b00111001#8 = .ok .extBe64 := by decide
theorem test_decode_appLe8 : decode 0b00000010#8 = .ok .appLe8 := by decide
theorem test_decode_appLe16 : decode 0b00001010#8 = .ok .appLe16 := by decide
theorem test_decode_appLe32 : decode 0b00010010#8 = .ok .appLe32 := by decide
theorem test_decode_appLe64 : decode 0b00011010#8 = .ok .appLe64 := by decide
theorem test_decode_appBe8 : decode 0b00100010#8 = .ok .appBe8 := by decide
theorem test_decode_appBe16 : decode 0b00101010#8 = .ok .appBe16 := by decide
theorem test_decode_appBe32 : decode 0b00110010#8 = .ok .appBe32 := by decide
theorem test_decode_appBe64 : decode 0b00111010#8 = .ok .appBe64 := by decide
theorem test_decode_venc8 : decode 0b00000011#8 = .ok .venc8 := by decide
theorem test_decode_venc16 : decode 0b00001011#8 = .ok .venc16 := by decide
theorem test_decode_venc32 : decode 0b00010011#8 = .ok .venc32 := by decide
theorem test_decode_venc64 : decode 0b00011011#8 = .ok .venc64 := by decide
theorem test_decode_vdec8 : decode 0b00000100#8 = .ok .vdec8 := by decide
theorem test_decode_vdec16 : decode 0b00001100#8 = .ok .vdec16 := by decide
theorem test_decode_vdec32 : decode 0b00010100#8 = .ok .vdec32 := by decide
theorem test_decode_vdec64 : decode 0b00011100#8 = .ok .vdec64 := by decide
theorem test_decode_V131 : decode 0b00000101#8 = .error .reservedOperation := by decide
theorem test_decode_V134 : decode 0b00111111#8 = .error .reservedOperation := by decide
theorem test_decode_V135 : decode 0b00100000#8 = .error .tagOnUntaggedCommand := by decide
theorem test_decode_V140 : decode 0b00111100#8 = .error .tagOnUntaggedCommand := by decide
theorem test_decode_V141 : decode 0b01000000#8 = .error .highBitsSet := by decide
theorem test_decode_V144 : decode 0b11111111#8 = .error .highBitsSet := by decide
theorem test_table_word : decodeTableWord 8 0x31 = some .extBe32 := by decide
theorem test_table_word_length : decodeTableWord 16 0x31 = none := by decide

/-! ### One step of each command -/

/-- V2. -/
theorem test_rev8_ignores_high_bits :
    answers (latched 0x1000 [] 0x00 0x0 0x1234 0)
      { val := 0x34, cnt := 0, err := false } 0x1000 [] = true := by decide

/-- V7. -/
theorem test_rev16_swaps_low_bytes :
    answers (latched 0x1000 [] 0x08 0x0 0xDEAD1234 0)
      { val := 0x3412, cnt := 0, err := false } 0x1000 [] = true := by decide

/-- V10. -/
theorem test_rev32_zero_extends :
    answers (latched 0x1000 [] 0x10 0x0 0xFF 0)
      { val := 0xFF000000, cnt := 0, err := false } 0x1000 [] = true := by decide

/-- V11. -/
theorem test_rev32_keeps_bits_in_bytes :
    answers (latched 0x1000 [] 0x10 0x0 0x80000001 0)
      { val := 0x1000080, cnt := 0, err := false } 0x1000 [] = true := by decide

/-- V14. -/
theorem test_rev64_reverses :
    answers (latched 0x1000 [] 0x18 0x0 0x123456789ABCDEF 0)
      { val := 0xEFCDAB8967452301, cnt := 0, err := false } 0x1000 [] = true := by decide

/-- V21. -/
theorem test_extLe8_no_sign :
    answers (latched 0x1000 [0x01, 0x23, 0x45, 0x67, 0x89, 0xAB, 0xCD, 0xEF] 0x01 0x1007 0xFFFF 77)
      { val := 0xEF, cnt := 1, err := false } 0x1000 [0x01, 0x23, 0x45, 0x67, 0x89, 0xAB, 0xCD, 0xEF] = true := by decide

/-- V20. -/
theorem test_extBe8_first_byte :
    answers (latched 0x1000 [0x01, 0x23, 0x45, 0x67, 0x89, 0xAB, 0xCD, 0xEF] 0x21 0x1000 0xFFFF 77)
      { val := 0x1, cnt := 1, err := false } 0x1000 [0x01, 0x23, 0x45, 0x67, 0x89, 0xAB, 0xCD, 0xEF] = true := by decide

/-- V24. -/
theorem test_extLe16_odd_address :
    answers (latched 0x1000 [0x01, 0x23, 0x45, 0x67, 0x89, 0xAB, 0xCD, 0xEF] 0x09 0x1003 0xFFFF 77)
      { val := 0x8967, cnt := 2, err := false } 0x1000 [0x01, 0x23, 0x45, 0x67, 0x89, 0xAB, 0xCD, 0xEF] = true := by decide

/-- V25. -/
theorem test_extBe16_odd_address :
    answers (latched 0x1000 [0x01, 0x23, 0x45, 0x67, 0x89, 0xAB, 0xCD, 0xEF] 0x29 0x1003 0xFFFF 77)
      { val := 0x6789, cnt := 2, err := false } 0x1000 [0x01, 0x23, 0x45, 0x67, 0x89, 0xAB, 0xCD, 0xEF] = true := by decide

/-- V28. -/
theorem test_extLe32_misaligned :
    answers (latched 0x1000 [0x01, 0x23, 0x45, 0x67, 0x89, 0xAB, 0xCD, 0xEF] 0x11 0x1003 0xFFFF 77)
      { val := 0xCDAB8967, cnt := 4, err := false } 0x1000 [0x01, 0x23, 0x45, 0x67, 0x89, 0xAB, 0xCD, 0xEF] = true := by decide

/-- V29. -/
theorem test_extBe32_no_sign :
    answers (latched 0x1000 [0x01, 0x23, 0x45, 0x67, 0x89, 0xAB, 0xCD, 0xEF] 0x31 0x1004 0xFFFF 77)
      { val := 0x89ABCDEF, cnt := 4, err := false } 0x1000 [0x01, 0x23, 0x45, 0x67, 0x89, 0xAB, 0xCD, 0xEF] = true := by decide

/-- V30. -/
theorem test_extLe64_reads_eight :
    answers (latched 0x1000 [0x01, 0x23, 0x45, 0x67, 0x89, 0xAB, 0xCD, 0xEF] 0x19 0x1000 0xFFFF 77)
      { val := 0xEFCDAB8967452301, cnt := 8, err := false } 0x1000 [0x01, 0x23, 0x45, 0x67, 0x89, 0xAB, 0xCD, 0xEF] = true := by decide

/-- V31. -/
theorem test_extBe64_reads_eight :
    answers (latched 0x1000 [0x01, 0x23, 0x45, 0x67, 0x89, 0xAB, 0xCD, 0xEF] 0x39 0x1000 0xFFFF 77)
      { val := 0x123456789ABCDEF, cnt := 8, err := false } 0x1000 [0x01, 0x23, 0x45, 0x67, 0x89, 0xAB, 0xCD, 0xEF] = true := by decide

/-- V38. -/
theorem test_appLe8_ignores_high_bits :
    answers (latched 0xFFF [0xEE, 0xEE, 0xEE, 0xEE, 0xEE, 0xEE, 0xEE, 0xEE, 0xEE, 0xEE] 0x02 0x1000 0x1FF 9)
      { val := 0x0, cnt := 1, err := false } 0xFFF [0xEE, 0xFF, 0xEE, 0xEE, 0xEE, 0xEE, 0xEE, 0xEE, 0xEE, 0xEE] = true := by decide

/-- V37. -/
theorem test_appBe8_one_byte :
    answers (latched 0xFFF [0xEE, 0xEE, 0xEE, 0xEE, 0xEE, 0xEE, 0xEE, 0xEE, 0xEE, 0xEE] 0x22 0x1000 0xA5 9)
      { val := 0x0, cnt := 1, err := false } 0xFFF [0xEE, 0xA5, 0xEE, 0xEE, 0xEE, 0xEE, 0xEE, 0xEE, 0xEE, 0xEE] = true := by decide

/-- V39. -/
theorem test_appLe16_low_byte_first :
    answers (latched 0xFFF [0xEE, 0xEE, 0xEE, 0xEE, 0xEE, 0xEE, 0xEE, 0xEE, 0xEE, 0xEE] 0x0A 0x1000 0x1234 9)
      { val := 0x0, cnt := 2, err := false } 0xFFF [0xEE, 0x34, 0x12, 0xEE, 0xEE, 0xEE, 0xEE, 0xEE, 0xEE, 0xEE] = true := by decide

/-- V46. -/
theorem test_appBe16_odd_address :
    answers (latched 0xFFF [0xEE, 0xEE, 0xEE, 0xEE, 0xEE, 0xEE, 0xEE, 0xEE, 0xEE, 0xEE] 0x2A 0x1003 0xBEEF 9)
      { val := 0x0, cnt := 2, err := false } 0xFFF [0xEE, 0xEE, 0xEE, 0xEE, 0xBE, 0xEF, 0xEE, 0xEE, 0xEE, 0xEE] = true := by decide

/-- V47. -/
theorem test_appLe32_misaligned :
    answers (latched 0xFFF [0xEE, 0xEE, 0xEE, 0xEE, 0xEE, 0xEE, 0xEE, 0xEE, 0xEE, 0xEE] 0x12 0x1001 0x80000001 9)
      { val := 0x0, cnt := 4, err := false } 0xFFF [0xEE, 0xEE, 0x01, 0x00, 0x00, 0x80, 0xEE, 0xEE, 0xEE, 0xEE] = true := by decide

/-- V43. -/
theorem test_appBe32_ignores_high_bits :
    answers (latched 0xFFF [0xEE, 0xEE, 0xEE, 0xEE, 0xEE, 0xEE, 0xEE, 0xEE, 0xEE, 0xEE] 0x32 0x1000 0xFFFFFFFF00000001 9)
      { val := 0x0, cnt := 4, err := false } 0xFFF [0xEE, 0x00, 0x00, 0x00, 0x01, 0xEE, 0xEE, 0xEE, 0xEE, 0xEE] = true := by decide

/-- V44. -/
theorem test_appLe64_low_byte_first :
    answers (latched 0xFFF [0xEE, 0xEE, 0xEE, 0xEE, 0xEE, 0xEE, 0xEE, 0xEE, 0xEE, 0xEE] 0x1A 0x1000 0x123456789ABCDEF 9)
      { val := 0x0, cnt := 8, err := false } 0xFFF [0xEE, 0xEF, 0xCD, 0xAB, 0x89, 0x67, 0x45, 0x23, 0x01, 0xEE] = true := by decide

/-- V45. -/
theorem test_appBe64_high_byte_first :
    answers (latched 0xFFF [0xEE, 0xEE, 0xEE, 0xEE, 0xEE, 0xEE, 0xEE, 0xEE, 0xEE, 0xEE] 0x3A 0x1000 0x123456789ABCDEF 9)
      { val := 0x0, cnt := 8, err := false } 0xFFF [0xEE, 0x01, 0x23, 0x45, 0x67, 0x89, 0xAB, 0xCD, 0xEF, 0xEE] = true := by decide

/-- V56. -/
theorem test_venc8_two_bytes :
    answers (latched 0xFFF [0xEE, 0xEE, 0xEE, 0xEE, 0xEE, 0xEE, 0xEE, 0xEE, 0xEE, 0xEE, 0xEE, 0xEE, 0xEE] 0x03 0x1000 0xFF 9)
      { val := 0x0, cnt := 2, err := false } 0xFFF [0xEE, 0xFF, 0x01, 0xEE, 0xEE, 0xEE, 0xEE, 0xEE, 0xEE, 0xEE, 0xEE, 0xEE, 0xEE] = true := by decide

/-- V57. -/
theorem test_venc8_ignores_high_bits :
    answers (latched 0xFFF [0xEE, 0xEE, 0xEE, 0xEE, 0xEE, 0xEE, 0xEE, 0xEE, 0xEE, 0xEE, 0xEE, 0xEE, 0xEE] 0x03 0x1000 0x100 9)
      { val := 0x0, cnt := 1, err := false } 0xFFF [0xEE, 0x00, 0xEE, 0xEE, 0xEE, 0xEE, 0xEE, 0xEE, 0xEE, 0xEE, 0xEE, 0xEE, 0xEE] = true := by decide

/-- V60. -/
theorem test_venc16_boundary :
    answers (latched 0xFFF [0xEE, 0xEE, 0xEE, 0xEE, 0xEE, 0xEE, 0xEE, 0xEE, 0xEE, 0xEE, 0xEE, 0xEE, 0xEE] 0x0B 0x1000 0x4000 9)
      { val := 0x0, cnt := 3, err := false } 0xFFF [0xEE, 0x80, 0x80, 0x01, 0xEE, 0xEE, 0xEE, 0xEE, 0xEE, 0xEE, 0xEE, 0xEE, 0xEE] = true := by decide

/-- V62. -/
theorem test_venc16_ignores_high_bits :
    answers (latched 0xFFF [0xEE, 0xEE, 0xEE, 0xEE, 0xEE, 0xEE, 0xEE, 0xEE, 0xEE, 0xEE, 0xEE, 0xEE, 0xEE] 0x0B 0x1000 0x12345 9)
      { val := 0x0, cnt := 2, err := false } 0xFFF [0xEE, 0xC5, 0x46, 0xEE, 0xEE, 0xEE, 0xEE, 0xEE, 0xEE, 0xEE, 0xEE, 0xEE, 0xEE] = true := by decide

/-- V73. -/
theorem test_venc32_worst_case :
    answers (latched 0xFFF [0xEE, 0xEE, 0xEE, 0xEE, 0xEE, 0xEE, 0xEE, 0xEE, 0xEE, 0xEE, 0xEE, 0xEE, 0xEE] 0x13 0x1000 0xFFFFFFFF 9)
      { val := 0x0, cnt := 5, err := false } 0xFFF [0xEE, 0xFF, 0xFF, 0xFF, 0xFF, 0x0F, 0xEE, 0xEE, 0xEE, 0xEE, 0xEE, 0xEE, 0xEE] = true := by decide

/-- V71. -/
theorem test_venc32_source_example :
    answers (latched 0xFFF [0xEE, 0xEE, 0xEE, 0xEE, 0xEE, 0xEE, 0xEE, 0xEE, 0xEE, 0xEE, 0xEE, 0xEE, 0xEE] 0x13 0x1000 0x10000000 9)
      { val := 0x0, cnt := 5, err := false } 0xFFF [0xEE, 0x80, 0x80, 0x80, 0x80, 0x01, 0xEE, 0xEE, 0xEE, 0xEE, 0xEE, 0xEE, 0xEE] = true := by decide

/-- V85. -/
theorem test_venc64_worst_case :
    answers (latched 0xFFF [0xEE, 0xEE, 0xEE, 0xEE, 0xEE, 0xEE, 0xEE, 0xEE, 0xEE, 0xEE, 0xEE, 0xEE, 0xEE] 0x1B 0x1000 0xFFFFFFFFFFFFFFFF 9)
      { val := 0x0, cnt := 10, err := false } 0xFFF [0xEE, 0xFF, 0xFF, 0xFF, 0xFF, 0xFF, 0xFF, 0xFF, 0xFF, 0xFF, 0x01, 0xEE, 0xEE] = true := by decide

/-- V83. -/
theorem test_venc64_boundary :
    answers (latched 0xFFF [0xEE, 0xEE, 0xEE, 0xEE, 0xEE, 0xEE, 0xEE, 0xEE, 0xEE, 0xEE, 0xEE, 0xEE, 0xEE] 0x1B 0x1000 0x7FFFFFFFFFFFFFFF 9)
      { val := 0x0, cnt := 9, err := false } 0xFFF [0xEE, 0xFF, 0xFF, 0xFF, 0xFF, 0xFF, 0xFF, 0xFF, 0xFF, 0x7F, 0xEE, 0xEE, 0xEE] = true := by decide

/-- V95. -/
theorem test_vdec8_truncates :
    answers (latched 0x3000 [0xFE, 0xCA] 0x04 0x3000 0x5 2)
      { val := 0x7E, cnt := 2, err := false } 0x3000 [0xFE, 0xCA] = true := by decide

/-- V123. -/
theorem test_vdec8_reads_past_its_width :
    answers (latched 0x3000 [0xFF, 0xFF, 0x01] 0x04 0x3000 0x5 3)
      { val := 0xFF, cnt := 3, err := false } 0x3000 [0xFF, 0xFF, 0x01] = true := by decide

/-- V119. -/
theorem test_vdec16_keeps_two_bits :
    answers (latched 0x3000 [0x80, 0x80, 0x03] 0x0C 0x3000 0x5 3)
      { val := 0xC000, cnt := 3, err := false } 0x3000 [0x80, 0x80, 0x03] = true := by decide

/-- V120. -/
theorem test_vdec16_truncates :
    answers (latched 0x3000 [0x80, 0x80, 0x04] 0x0C 0x3000 0x5 3)
      { val := 0x0, cnt := 3, err := false } 0x3000 [0x80, 0x80, 0x04] = true := by decide

/-- V91. -/
theorem test_vdec32_stopped_by_length :
    answers (latched 0x3000 [0xFE, 0xCA] 0x14 0x3000 0x5 2)
      { val := 0x257E, cnt := 2, err := false } 0x3000 [0xFE, 0xCA] = true := by decide

/-- V127. -/
theorem test_vdec32_stops_at_terminator :
    answers (latched 0x3000 [0x05, 0xFF] 0x14 0x3000 0x5 2)
      { val := 0x5, cnt := 1, err := false } 0x3000 [0x05, 0xFF] = true := by decide

/-- V111. -/
theorem test_vdec64_top_bit :
    answers (latched 0x3000 [0x80, 0x80, 0x80, 0x80, 0x80, 0x80, 0x80, 0x80, 0x80, 0x03] 0x1C 0x3000 0x5 10)
      { val := 0x8000000000000000, cnt := 10, err := false } 0x3000 [0x80, 0x80, 0x80, 0x80, 0x80, 0x80, 0x80, 0x80, 0x80, 0x03] = true := by decide

/-- V112. -/
theorem test_vdec64_group_beyond :
    answers (latched 0x3000 [0x80, 0x80, 0x80, 0x80, 0x80, 0x80, 0x80, 0x80, 0x80, 0x80, 0x01] 0x1C 0x3000 0x5 11)
      { val := 0x0, cnt := 11, err := false } 0x3000 [0x80, 0x80, 0x80, 0x80, 0x80, 0x80, 0x80, 0x80, 0x80, 0x80, 0x01] = true := by decide

/-! ### Faults and stops -/

/-- V146: the worst case is required. -/
theorem test_venc_needs_the_worst_case : stopsAt (inRegion [] 0x13 0x500 5 0) 0x504 = true := by decide

/-- V147. -/
theorem test_venc_inside_region :
    answers (inRegion [] 0x0B 0x501 5 0) { val := 0, cnt := 1, err := false } 0x500 [0, 5, 0, 0] = true := by decide

/-- V150. -/
theorem test_app_checked_first : stopsAt (inRegion [] 0x12 0x501 1 0) 0x504 = true := by decide

/-- V151. -/
theorem test_ext_leaves_region : stopsAt (inRegion [] 0x29 0x503 0 0) 0x504 = true := by decide

/-- V154: the byte outside is never read. -/
theorem test_vdec_checks_as_it_reads :
    answers (inRegion [] 0x14 0x503 0 2) { val := 0, cnt := 1, err := false } 0x503 [0] = true := by decide

/-- V155. -/
theorem test_vdec_leaves_region : stopsAt (inRegion [0, 0, 0, 0x80] 0x14 0x503 0 2) 0x504 = true := by decide

/-- V157. -/
theorem test_vdec_of_nothing :
    answers (inRegion [] 0x14 0x504 0 0) { val := 0, cnt := 0, err := false } 0x500 [] = true := by decide

/-- V160: no address wraps. -/
theorem test_no_wrap : stopsAt (latched 0 [] 0x0A 0xFFFFFFFF 1 0) 0x100000000 = true := by decide

/-- V161: a reserved word is decided before any address. -/
theorem test_illegal_command :
    answers (inRegion [] 0x05 0x9999 6 7) { val := 0, cnt := 0, err := true } 0x500 [] = true := by decide

/-! ### The protocol and reset -/

/-- R162: reset after two accesses of `app.le.32` ends it with no response; two of its bytes had been written. -/
theorem test_reset_in_flight :
    let s := { latched 0x1000 [] 0x12 0x1000 0xAABBCCDD 0 with host := [.reset (.inFlight 2)] }
    (afterStep s).busy = false ∧ (afterStep s).rsp = none ∧ (s.commandWrites .appLe32).take 2 = [0xDD, 0xCC] := by decide

/-- `app.le.8` of A5 at 0x1000, beside a byte EE, with a reset after its one write. -/
def abandoning : State := { latched 0x0FFF [0xEE] 0x02 0x1000 0xA5 0 with host := [.reset (.inFlight 1)] }

/-- U9: after a reset the byte of the write set is a free value, and the byte beside it is as before. -/
theorem test_reset_in_flight_bytes :
    (afterStep abandoning).mem.read 0x1000 = Config.abandonedByte 0 0xA5 ∧
    (afterStep abandoning).mem.read 0x0FFF = 0xEE := by
  have h : afterStep abandoning = (State.spoil 1 0x1000
      { abandoning.dropEvent with mem := abandoning.dropEvent.mem.writeBytes 0x1000 [0xA5] }).resetUnit := rfl
  rw [h, State.resetUnit_mem, State.read_spoil, State.read_spoil]
  exact ⟨(if_pos (by decide)).trans rfl, (if_neg (by decide)).trans rfl⟩

/-- R156: no good end where reset abandons the last command, and none where it drops the last response. -/
theorem test_no_good_end_without_the_last_response :
    let s := afterStep (hosted [.issue ⟨0, 0, 5, 0⟩, .reset (.inFlight 0)])
    let u := afterStep (afterStep (hosted [.issue ⟨0, 0, 5, 0⟩, .reset .responsePending]))
    ((afterStep s).idle = true ∧ (afterStep s).goodEnd = false) ∧
    ((afterStep u).idle = true ∧ (afterStep u).goodEnd = false) := by decide

/-- R156: a good end once the response has been taken, and a reset after that does not undo it. -/
theorem test_good_end :
    let s := hosted [.issue ⟨0, 0, 5, 0⟩, .reset .idle]
    (afterStep (afterStep (afterStep (afterStep s)))).goodEnd = true := by decide

/-- R12: the latched pointer has `AW` bits (log 15). -/
theorem test_issue_cuts_the_pointer :
    (afterStep (hosted [.issue ⟨0x01, 0x100000005, 0, 0⟩])).cmd.ptr = 5 := by decide

/-- R19: what the host stores, the next command reads. -/
theorem test_host_store : (afterStep (hosted [.store 7 0xA5])).mem.read 7 = 0xA5 := by decide

/-- R19: an address above `2 ^ AW - 1` does not exist. -/
theorem test_host_store_outside : step (hosted [.store 0x100000000 1]) = .fault (.outsideBufferSpace 0x100000000) := rfl

/-- The word placed for the next step is the one it runs: `rev.32` of 0 (log 11). -/
theorem test_fetch_word : (afterStep (State.reset.withFetchWord 8 0x10)).rsp = some { val := 0, cnt := 0, err := false } := by
  decide

/-- Program P4, steps 7 and 8: the unit recovers from a reserved word, and the mark stays. -/
theorem test_recovers_from_a_reserved_word :
    let s := hosted [.issue ⟨0x20, 0x400, 0x1234, 2⟩, .issue ⟨0x08, 0, 0x1234, 0⟩]
    let u := afterStep (afterStep (afterStep (afterStep (afterStep (afterStep s)))))
    u.taken = [⟨0, 0, true⟩, ⟨0x3412, 0, false⟩] ∧ u.faultMark = true ∧ u.goodEnd = false := by decide

/-! ### Witnesses: encoding and byte reversal -/

theorem witness_DecoderFollowsTheFieldChecks :
    ((0xFF : Byte).extractLsb' 6 2 ≠ 0#2 ∧ (0x40 : Byte).extractLsb' 6 2 ≠ 0#2) ∧
    ((0x05 : Byte).extractLsb' 6 2 = 0#2 ∧ 4 < ((0x05 : Byte).extractLsb' 0 3).toNat) ∧
    ((0x3C : Byte).extractLsb' 6 2 = 0#2 ∧ ((0x3C : Byte).extractLsb' 0 3).toNat ≤ 4 ∧ (0x3C : Byte).getLsbD 5 = true ∧
      ((0x3C : Byte).extractLsb' 0 3).toNat ≠ 1 ∧ ((0x3C : Byte).extractLsb' 0 3).toNat ≠ 2) ∧
    ((0x1C : Byte).extractLsb' 6 2 = 0#2 ∧ ((0x1C : Byte).extractLsb' 0 3).toNat ≤ 4 ∧ (0x1C : Byte).getLsbD 5 = false) ∧
    ((0x3A : Byte).extractLsb' 6 2 = 0#2 ∧ (0x3A : Byte).getLsbD 5 = true ∧ ((0x3A : Byte).extractLsb' 0 3).toNat = 2) ∧
    decode 0x3A = .ok .appBe64 := by decide

theorem witness_DecodeAndEncodeAgree : decode 0x1C = .ok .vdec64 := by decide

theorem witness_ByteReversalExchangesBytes :
    (truncW .w16 0xFFFF = 0xFFFF ∧ 1 < sizeBytes .w16) ∧ (truncW .w64 0x8000000000000001 = 0x8000000000000001 ∧
      7 < sizeBytes .w64) := by decide

theorem witness_ByteReversalLaws :
    (truncW .w8 0xA5 = 0xA5 ∧ sizeBytes .w8 = 1) ∧
    (truncW .w32 0xFF0000FF = 0xFF0000FF ∧
      revBytes .be 0xFF0000FF (sizeBytes .w32) = revBytes .be 0xFF0000FF (sizeBytes .w32)) := by decide

/-! ### Witnesses: extract and append, at the last address they may use and one past it -/

/-- Every byte of the last `n` addresses of the buffer space may be accessed, and one address on it may not. -/
theorem witness_fixed_width_completes :
    ∀ n ∈ [1, 2, 4, 8], (latched 0 [] 0 (0x100000000 - n) 0 0).mayAccessRange (0x100000000 - n) n := by decide

theorem witness_fixed_width_faults :
    ∀ n ∈ [1, 2, 4, 8], (latched 0 [] 0 (0x100000001 - n) 0 0).mayAccessRange (0x100000001 - n) (n - 1) ∧
      (latched 0 [] 0 (0x100000001 - n) 0 0).mayAccess (0x100000001 - n + (n - 1)) = false := by decide

/-- `ExtractLittleEndian`, `ExtractBigEndian`: the completing clause at the edge of a small `REGION`. -/
theorem witness_ExtractCommands :
    (inRegion [] 0x11 0x500 0 0).mayAccessRange 0x500 4 ∧ (inRegion [] 0x09 0x502 0 0).mayAccessRange 0x502 2 ∧
    (inRegion [] 0x09 0x503 0 0).mayAccessRange 0x503 1 ∧ (inRegion [] 0x09 0x503 0 0).mayAccess (0x503 + 1) = false := by
  decide

/-- `AppendLittleEndian`, `AppendBigEndian`: both clauses, and an address outside the bytes written on either side. -/
theorem witness_AppendCommands :
    (inRegion [] 0x12 0x500 1 0).mayAccessRange 0x500 4 ∧ 0x4FF < (inRegion [] 0x12 0x500 1 0).cmd.ptr ∧
    (inRegion [] 0x12 0x500 1 0).cmd.ptr + 4 ≤ 0x504 ∧
    (inRegion [] 0x12 0x501 1 0).mayAccessRange 0x501 3 ∧ (inRegion [] 0x12 0x501 1 0).mayAccess (0x501 + 3) = false := by
  decide

theorem witness_FixedWidthClosedForms :
    (latched 0x1000 [1, 2, 3, 4, 5, 6, 7, 8] 0x19 0x1000 0 0).mayAccessRange 0x1000 (sizeBytes .w64) := by decide

/-- The state of the round trips: `app.be.32` of a value, at the first bytes of a region that it fills. -/
def appending : State := inRegion [] 0x32 0x500 0xDDCCBBAA 0

theorem witness_AppendThenExtract :
    (exec (Shape.app .be .w32).instr appending = .next (afterExec .appBe32 appending) ∧
      (afterExec .appBe32 appending).cmd.ptr = appending.cmd.ptr ∧
      (afterExec .appBe32 appending).mayAccessRange appending.cmd.ptr (sizeBytes .w32)) ∧
    ((∀ j, j < sizeBytes .w32 → appending.bufferByte j = (bigNative appending).bufferByte j) ∧
      exec (Shape.ext .le .w32).instr appending = .next (afterExec .extLe32 appending) ∧
      exec (Shape.ext .le .w32).instr (bigNative appending) = .next (afterExec .extLe32 (bigNative appending))) :=
  ⟨⟨rfl, rfl, by decide⟩, by decide, rfl, rfl⟩

/-! ### Witnesses: the codec -/

/-- `EncodeCommand`: the worst case fits, at the edge; one address on, it does not; 0x10000000 takes 5 bytes, the value 0
takes 1, so both ends of the range of L occur. -/
theorem witness_EncodeWritesTheGroups :
    (latched 0 [] 0x13 0xFFFFFFFB 0x10000000 0).mayAccessRange 0xFFFFFFFB 5 ∧ encodedLength 0x10000000 = 5 ∧
    encodedLength 0 = 1 ∧
    (inRegion [] 0x13 0x500 5 0).mayAccessRange 0x500 4 ∧ (inRegion [] 0x13 0x500 5 0).mayAccess (0x500 + 4) = false := by
  decide

/-- The state of the codec's round trip: `venc.32` of 300 over `EE` bytes. -/
def encoding : State := latched 0x300 [0xEE, 0xEE, 0xEE, 0xEE, 0xEE, 0xEE] 0x13 0x300 300 0

/-- Both clauses: a command that completes, and the same one abandoned after its first byte. -/
theorem witness_EncodeStepView :
    exec (Shape.venc .w32).instr encoding = .next (afterExec .venc32 encoding) ∧
    decode encoding.cmd.cw = .ok (Shape.venc .w32).instr ∧
    (∃ u, InFlight.steps State.vencStep 1 (.running (encoding.vencStart .w32)) = .running u) ∧
    ∃ w, encoding.abandon 1 = .next w := ⟨rfl, by decide, ⟨_, rfl⟩, _, rfl⟩

/-- The bytes `FE CA 05` at the end of a small `REGION`. -/
def decoding (len : Byte) : State := inRegion [0, 0xFE, 0xCA, 0x05] 0x14 0x501 0 len

/-- Stopped by the length (k = len = 2), stopped by the terminator (k = 3, a larger len), and no byte at all (k = 0). -/
theorem witness_DecodeReturnsTheGroups :
    ((decoding 2).decodesBytes 2 ∧ (decoding 2).mayAccessRange 0x501 2) ∧
    ((decoding 255).decodesBytes 3 ∧ (decoding 255).mayAccessRange 0x501 3) ∧
    ((decoding 0).decodesBytes 0 ∧ (decoding 0).mayAccessRange 0x501 0) := by
  refine ⟨⟨⟨by decide, fun j hj => ?_, by decide⟩, by decide⟩, ⟨⟨by decide, fun j hj => ?_, by decide⟩, by decide⟩,
    ⟨by decide, fun j hj => ?_, by decide⟩, by decide⟩
  · obtain rfl : j = 0 := by omega
    decide
  · obtain rfl | rfl : j = 0 ∨ j = 1 := by omega
    · decide
    · decide
  · omega

/-- The last byte of the region has its continuation bit set, and the next one is outside; also with no byte before it. -/
theorem witness_DecodeFaultsAtTheFirstOffendingRead :
    (Instr.vdec32 ∈ [Instr.vdec8, .vdec16, .vdec32, .vdec64] ∧
      1 < (inRegion [0, 0, 0, 0x80] 0x14 0x503 0 2).cmd.len.toNat ∧
      (∀ l, l < 1 → continues ((inRegion [0, 0, 0, 0x80] 0x14 0x503 0 2).bufferByte l) = true) ∧
      (inRegion [0, 0, 0, 0x80] 0x14 0x503 0 2).mayAccessRange 0x503 1 ∧
      (inRegion [0, 0, 0, 0x80] 0x14 0x503 0 2).mayAccess (0x503 + 1) = false) ∧
    (0 < (inRegion [] 0x04 0x504 0 1).cmd.len.toNat ∧ (inRegion [] 0x04 0x504 0 1).mayAccess (0x504 + 0) = false) := by
  decide

theorem witness_DecodeOfNoBytes :
    Instr.vdec64 ∈ [Instr.vdec8, .vdec16, .vdec32, .vdec64] ∧ (inRegion [] 0x1C 0x9999 0 0).cmd.len = 0 := by decide

theorem witness_DecodeWithoutTerminator :
    (∀ j, j < (decoding 2).cmd.len.toNat → continues ((decoding 2).bufferByte j) = true) ∧
    (decoding 2).mayAccessRange (decoding 2).cmd.ptr (decoding 2).cmd.len.toNat := by decide

/-- Both outcomes of a decode occur. -/
theorem witness_DecodeStepView :
    exec (Shape.vdec .w32).instr (decoding 2) = .next (afterExec .vdec32 (decoding 2)) ∧
    exec (Shape.vdec .w32).instr (inRegion [] 0x14 0x504 0 1) =
      .fault (.bufferPrecondition (inRegion [] 0x14 0x504 0 1).cmd 0x504) := ⟨rfl, rfl⟩

/-- `vdec.64` of exactly the two bytes `venc.32` wrote. -/
theorem witness_EncodeThenDecode :
    let w := { afterExec .venc32 encoding with cmd := { cw := 0x1C, ptr := 0x300, val := 0, len := 2 } }
    sizeBits .w32 ≤ sizeBits .w64 ∧ exec (Shape.venc .w32).instr encoding = .next (afterExec .venc32 encoding) ∧
    (afterExec .venc32 encoding).rsp = some { val := 0, cnt := 2, err := false } ∧ w.cmd.ptr = encoding.cmd.ptr ∧
    (2#8).toNat ≤ w.cmd.len.toNat ∧ w.mayAccessRange encoding.cmd.ptr (2#8).toNat ∧
    ∀ j, j < (2#8).toNat →
      w.mem.read (encoding.cmd.ptr + j) = (afterExec .venc32 encoding).mem.read (encoding.cmd.ptr + j) :=
  ⟨by decide, rfl, by decide, rfl, by decide, by decide, fun _ _ => rfl⟩

/-! ### Witnesses: all commands -/

/-- The last address but three and a command of four bytes fit; one more byte does not (`NoAddressWraps`). -/
theorem witness_NoAddressWraps :
    storesTo .appLe32 = true ∧ (∀ sz, Instr.appLe32.shape ≠ .vdec sz) ∧
    2 ^ (latched 0 [] 0x12 0xFFFFFFFD 1 0).cfg.aw <
      (latched 0 [] 0x12 0xFFFFFFFD 1 0).cmd.ptr + mayTouchBytes .appLe32 (latched 0 [] 0x12 0xFFFFFFFD 1 0).cmd.len :=
  ⟨by decide, fun _ h => Shape.noConfusion h, by decide⟩

/-- A region that the command fills, and a decode that reads 3 of its 255 bytes. -/
theorem witness_NoFaultDependsOnData :
    (appending.requiresBytes .appBe32 4 ∧ appending.mayAccessRange appending.cmd.ptr 4) ∧
    ((decoding 255).requiresBytes .vdec32 3 ∧ (decoding 255).mayAccessRange (decoding 255).cmd.ptr 3) :=
  ⟨⟨rfl, by decide⟩, witness_DecodeReturnsTheGroups.2.1.1, by decide⟩

/-- Two states that differ in `NATIVE`, a working register, the pending response, an ignored operand and a byte that the
command does not read. -/
theorem witness_ResponseDependsOnOperandsAndBytesOnly :
    let u := { bigNative (decoding 255) with
      t := 7, rsp := some ⟨1, 2, true⟩, cmd := { (decoding 255).cmd with val := 99 }
      mem := (decoding 255).mem.write 0x500 1 }
    sameOperands .vdec32 (decoding 255) u ∧
    (loadsFrom .vdec32 = true → ∀ k, (decoding 255).requiresBytes .vdec32 k → ∀ j, j < k →
      (decoding 255).bufferByte j = u.bufferByte j) := by
  refine ⟨⟨rfl, rfl, rfl, rfl⟩, fun _ k hk j hj => ?_⟩
  have hlast : j < 3 := by
    have hk' : (decoding 255).decodesBytes k := hk
    by_contra hge
    have hc := hk'.2.1 2 (by omega)
    revert hc
    decide
  obtain rfl | rfl | rfl : j = 0 ∨ j = 1 ∨ j = 2 := by omega
  · decide
  · decide
  · decide

theorem witness_OnlyAppendAndEncodeWriteTheBuffer :
    (exec .venc32 encoding = .next (afterExec .venc32 encoding) ∧ storesTo .venc32 = true) ∧
    (exec .vdec32 (decoding 3) = .next (afterExec .vdec32 (decoding 3)) ∧ storesTo .vdec32 = false) :=
  ⟨⟨rfl, rfl⟩, rfl, rfl⟩

theorem witness_RepeatingACommandChangesNothing : exec .venc32 encoding = .next (afterExec .venc32 encoding) := rfl

/-- Program P5: unit A appends 4 bytes at 0x600, unit B encodes at 0x604. -/
def unitA : State := { latched 0 [] 0x32 0x600 0x01020304 0 with cfg := { Config.resetParams with region := [⟨0x600, 4⟩] } }

/-- Unit B of program P5. -/
def unitB : State := { latched 0 [] 0x0B 0x604 0xFFFF 0 with cfg := { Config.resetParams with region := [⟨0x604, 4⟩] } }

theorem witness_DisjointCommandsRunInEitherOrder :
    unitA.mem = unitB.mem ∧ nonOverlapping unitA .appBe32 unitB .venc16 ∧
    exec .appBe32 unitA = .next (afterExec .appBe32 unitA) ∧ exec .venc16 unitB = .next (afterExec .venc16 unitB) := by
  refine ⟨rfl, fun a => ?_, rfl, rfl⟩
  simp [State.mayStore, State.mayTouch, storesTo, mayTouchBytes, Instr.shape, sizeBytes, maxlen, sizeBits, unitA, unitB,
    latched]
  omega

/-! ### Witnesses: the step, the protocol and reset -/

theorem witness_StepRunsTheLatchedCommand :
    encoding.busy = true ∧ (∀ k rest, encoding.host ≠ .reset (.inFlight k) :: rest) ∧
    decode encoding.cmd.cw = .ok .venc32 :=
  ⟨rfl, fun _ _ => (List.cons_ne_nil _ _).symm, by decide⟩

theorem witness_StepTakesIllegalCommand :
    let s := inRegion [] 0x05 0x9999 6 7
    s.busy = true ∧ (∀ k rest, s.host ≠ .reset (.inFlight k) :: rest) ∧ legalWord s.cmd.cw = false :=
  ⟨rfl, fun _ _ => (List.cons_ne_nil _ _).symm, by decide⟩

theorem witness_StepIssuesACommand :
    let s := hosted [.issue ⟨0x00, 0x100000000, 5, 0⟩]
    s.busy = false ∧ s.rsp = none ∧ s.host = .issue ⟨0x00, 0x100000000, 5, 0⟩ :: [] := by decide

/-- The host has a reset in its list that lands only once the unit is idle again. -/
theorem witness_StepTakesAResponse :
    let s := { hosted [.reset .idle] with rsp := some ⟨5, 0, false⟩ }
    s.busy = false ∧ s.rsp = some ⟨5, 0, false⟩ ∧ ∀ p rest, s.host = .reset p :: rest → p = .idle :=
  ⟨rfl, rfl, fun _ _ h => by injection h with h; injection h with h; exact h.symm⟩

/-- The last address of the buffer space and the first above it. -/
theorem witness_StepWaitsAndStores :
    (State.reset.idle = true ∧ State.reset.host = []) ∧
    ((hosted [.store 0xFFFFFFFF 1]).idle = true ∧ (hosted [.store 0xFFFFFFFF 1]).host = .store 0xFFFFFFFF 1 :: [] ∧
      0xFFFFFFFF < 2 ^ (hosted [.store 0xFFFFFFFF 1]).cfg.aw) ∧
    ((hosted [.store 0x100000000 1]).idle = true ∧
      (hosted [.store 0x100000000 1]).host = .store 0x100000000 1 :: [] ∧
      2 ^ (hosted [.store 0x100000000 1]).cfg.aw ≤ 0x100000000) := by decide

theorem witness_FetchWordRunsNext : 0x3A < 256 ∧ decodeTableWord 8 0x3A = some .appBe64 := by decide

theorem witness_CommandsReachTheirResponse :
    appending.busy = true ∧ (∀ p rest, appending.host ≠ .reset p :: rest) ∧ decode appending.cmd.cw = .ok .appBe32 ∧
    appending.mayAccessRange appending.cmd.ptr (mayTouchBytes .appBe32 appending.cmd.len) :=
  ⟨rfl, fun _ _ => (List.cons_ne_nil _ _).symm, by decide, by decide⟩

/-- Two commands, the second with a reserved word. -/
theorem witness_CommandListRunsToItsEnd :
    let cs : List Command := [⟨0x12, 0xFFFFFFFC, 5, 0⟩, ⟨0x20, 0, 0, 0⟩]
    (hosted (cs.map HostEvent.issue)).idle = true ∧ (hosted (cs.map HostEvent.issue)).host = cs.map HostEvent.issue ∧
    ∀ c ∈ cs, ∀ i, decode c.cw = .ok i →
      (hosted (cs.map HostEvent.issue)).mayAccessRange c.ptr (mayTouchBytes i c.len) := by
  refine ⟨rfl, rfl, fun c hc i hi => ?_⟩
  rcases List.mem_cons.mp hc with rfl | hc
  · rw [show decode 0x12 = .ok .appLe32 from rfl] at hi
    cases hi
    decide
  · rw [List.mem_singleton.mp hc, show decode 0x20 = .error .tagOnUntaggedCommand from rfl] at hi
    cases hi

/-- The last response is pending and the host does nothing more. -/
theorem witness_GoodEndComesByTakingAResponse :
    let s := { hosted [] with rsp := some ⟨5, 0, false⟩, unanswered := true }
    s.unanswered = true ∧ step s = .next (afterStep s) ∧ (afterStep s).goodEnd = true := ⟨rfl, rfl, by decide⟩

/-- A reset of an idle unit, and one while a response is pending. -/
theorem witness_ResetLeavesTheUnitIdle :
    let s := { hosted [.reset .responsePending] with rsp := some ⟨5, 0, false⟩ }
    ((hosted [.reset .idle]).busy = false ∧ (hosted [.reset .idle]).host = .reset .idle :: [] ∧
      (hosted [.reset .idle]).rsp = none) ∧
    s.busy = false ∧ s.host = .reset .responsePending :: [] ∧ ResetPoint.responsePending ≠ .idle := by decide

/-- `app.be.32` in flight, with a reset before its first byte access and one after all of them. -/
theorem witness_AbandonedCommandSpoilsItsWriteSet :
    ∀ k ∈ [0, 4], ({ appending with host := [.reset (.inFlight k)] } : State).busy = true ∧
      ({ appending with host := [.reset (.inFlight k)] } : State).host = .reset (.inFlight k) :: [] ∧
      decode ({ appending with host := [.reset (.inFlight k)] } : State).cmd.cw = .ok .appBe32 ∧
      ({ appending with host := [.reset (.inFlight k)] } : State).mayAccessRange 0x500 (mayTouchBytes .appBe32 0) := by
  decide

theorem witness_StepKeepsTheInvariant :
    appending.invariant = true ∧ step appending = .next (afterStep appending) := ⟨by decide, rfl⟩

theorem witness_StepKeepsTheParameters : step encoding = .next (afterStep encoding) := rfl

/-- A mark that is set stays; a mark that is clear is set by a reserved word in flight. -/
theorem witness_FaultMarkIsSticky :
    (step { encoding with faultMark := true } = .next (afterStep { encoding with faultMark := true }) ∧
      ({ encoding with faultMark := true } : State).faultMark = true) ∧
    (step (inRegion [] 0x05 0 0 0) = .next (afterStep (inRegion [] 0x05 0 0 0)) ∧
      (inRegion [] 0x05 0 0 0).faultMark = false ∧ (afterStep (inRegion [] 0x05 0 0 0)).faultMark = true) :=
  ⟨⟨rfl, rfl⟩, rfl, rfl, rfl⟩

theorem witness_BusyEndsByResponseOrReset :
    encoding.busy = true ∧ step encoding = .next (afterStep encoding) := ⟨rfl, rfl⟩

end Sys2Proof.Tests
end

section
/-! SUPPORT. The decoder of R66 branch by branch, its fields put together again as the word they were cut from (R50), and
the encoder as its inverse on the legal words. The two statements about the decoder are settled from these. -/

namespace Sys2Proof.Encoding

open Sys2Proof Sys2Proof.Machine

/-! ### Fields of a command word -/

/-- R50: the four fields, high to low, are the whole word. -/
theorem fields_append (cw : Byte) : fieldZ cw ++ fieldE cw ++ fieldSz cw ++ fieldOp cw = cw := by
  unfold fieldZ fieldE fieldSz fieldOp
  rw [BitVec.extractLsb'_append_extractLsb'_eq_extractLsb' (by rfl),
    BitVec.extractLsb'_append_extractLsb'_eq_extractLsb' (by rfl),
    BitVec.extractLsb'_append_extractLsb'_eq_extractLsb' (by rfl)]
  exact BitVec.extractLsb'_eq_self

theorem fieldE_eq_one_iff (cw : Byte) : fieldE cw = 1#1 ↔ cw.getLsbD 5 = true := by
  simp [fieldE, BitVec.eq_of_getLsbD_eq_iff]

/-- The operations that have an endianness tag, `ext` and `app` (R51), by number and by field. -/
theorem toNat_eq_one_or_two_iff (op : BitVec 3) :
    op.toNat = 1 ∨ op.toNat = 2 ↔ op = 0b001#3 ∨ op = 0b010#3 := by
  simp [BitVec.toNat_eq]

theorem field_sizeOfField : ∀ sz : BitVec 2, (sizeOfField sz).field = sz := by decide

theorem field_endianOfField : ∀ e : BitVec 1, (endianOfField e).field = e := by decide

/-! ### Shapes, commands and their words -/

/-- R56: the case table from command to shape undoes the one from shape to command. -/
@[simp] theorem shape_instr (sh : Shape) : sh.instr.shape = sh := by
  rcases sh with sz | ⟨e, sz⟩ | ⟨e, sz⟩ | sz | sz <;> cases sz
  case ext.w8 | ext.w16 | ext.w32 | ext.w64 | app.w8 | app.w16 | app.w32 | app.w64 => cases e <;> rfl
  all_goals rfl

open Laws.WordShape in
/-- The family `WordShape` for all 28 commands at once. -/
theorem wordShape_statement (i : Instr) : Laws.WordShape.Statement i := by
  cases i
  exacts [rev8, rev16, rev32, rev64,
    extLe8, extLe16, extLe32, extLe64, extBe8, extBe16, extBe32, extBe64,
    appLe8, appLe16, appLe32, appLe64, appBe8, appBe16, appBe32, appBe64,
    venc8, venc16, venc32, venc64, vdec8, vdec16, vdec32, vdec64]

theorem legalWord_encode (i : Instr) : legalWord (encode i) = true := (wordShape_statement i).1

/-- What the fields `op`, `E` and `sz` name has the word with these fields, when they pass the checks of R66. -/
theorem word_shapeOfFields {op : BitVec 3} {e : BitVec 1} (sz : BitVec 2) (hop : op.toNat ≤ 4)
    (htag : e = 1#1 → op = 0b001#3 ∨ op = 0b010#3) :
    (shapeOfFields op e sz).word = 0#2 ++ e ++ sz ++ op := by
  have untagged (h1 : op ≠ 0b001#3) (h2 : op ≠ 0b010#3) : e = 0#1 :=
    (BitVec.eq_zero_or_eq_one e).resolve_right fun he => (htag he).elim h1 h2
  unfold shapeOfFields
  split_ifs with rev ext app venc
  · rw [untagged (by simp [rev]) (by simp [rev]), rev, Shape.word, field_sizeOfField]
  · rw [ext, Shape.word, field_sizeOfField, field_endianOfField]
  · rw [app, Shape.word, field_sizeOfField, field_endianOfField]
  · rw [untagged ext app, venc, Shape.word, field_sizeOfField]
  · have vdec : op = 0b100#3 := by bv_omega
    rw [untagged ext app, vdec, Shape.word, field_sizeOfField]

/-! ### The decoder -/

theorem decode_of_highBits {cw : Byte} (hz : fieldZ cw ≠ 0#2) : decode cw = .error .highBitsSet := if_pos hz

theorem decode_of_reservedOperation {cw : Byte} (hz : fieldZ cw = 0#2) (hop : 4 < (fieldOp cw).toNat) :
    decode cw = .error .reservedOperation := by
  rw [decode, if_neg (not_not_intro hz), if_pos hop]

theorem decode_of_tag {cw : Byte} (hz : fieldZ cw = 0#2) (hop : (fieldOp cw).toNat ≤ 4) (he : fieldE cw = 1#1)
    (hun : ¬ (fieldOp cw = 0b001#3 ∨ fieldOp cw = 0b010#3)) : decode cw = .error .tagOnUntaggedCommand := by
  rw [decode, if_neg (not_not_intro hz), if_neg hop.not_gt, if_pos ⟨he, not_or.mp hun⟩]

theorem decode_of_checks {cw : Byte} (hz : fieldZ cw = 0#2) (hop : (fieldOp cw).toNat ≤ 4)
    (htag : fieldE cw = 1#1 → fieldOp cw = 0b001#3 ∨ fieldOp cw = 0b010#3) :
    decode cw = .ok (shapeOfFields (fieldOp cw) (fieldE cw) (fieldSz cw)).instr := by
  rw [decode, if_neg (not_not_intro hz), if_neg hop.not_gt, if_neg]
  rintro ⟨he, h1, h2⟩
  exact (htag he).elim h1 h2

/-- Everything an accepted word says: it has passed the three checks of R66, and its fields name the command. -/
theorem checks_of_decode_eq_ok {cw : Byte} {i : Instr} (h : decode cw = .ok i) :
    fieldZ cw = 0#2 ∧ (fieldOp cw).toNat ≤ 4 ∧
      (fieldE cw = 1#1 → fieldOp cw = 0b001#3 ∨ fieldOp cw = 0b010#3) ∧
      i.shape = shapeOfFields (fieldOp cw) (fieldE cw) (fieldSz cw) := by
  unfold decode at h
  split_ifs at h with hz hop htag
  cases h
  refine ⟨not_not.mp hz, not_lt.mp hop, fun he => ?_, shape_instr _⟩
  by_contra hun
  exact htag ⟨he, not_or.mp hun⟩

/-- R59: an accepted word is the word of the command it decodes to. -/
theorem encode_of_decode_eq_ok {cw : Byte} {i : Instr} (h : decode cw = .ok i) : encode i = cw := by
  obtain ⟨hz, hop, htag, hshape⟩ := checks_of_decode_eq_ok h
  calc encode i = (shapeOfFields (fieldOp cw) (fieldE cw) (fieldSz cw)).word := congrArg Shape.word hshape
    _ = fieldZ cw ++ fieldE cw ++ fieldSz cw ++ fieldOp cw := by rw [word_shapeOfFields _ hop htag, hz]
    _ = cw := fields_append cw

/-- R66: two different legal words are two different commands. -/
theorem decode_injective {a b : Byte} {i : Instr} (ha : decode a = .ok i) (hb : decode b = .ok i) : a = b :=
  (encode_of_decode_eq_ok ha).symm.trans (encode_of_decode_eq_ok hb)

/-- R57: the words the decoder accepts are the words of the list, which is written out apart from it. -/
theorem legalWord_iff_decode (cw : Byte) : legalWord cw = true ↔ ∃ i, decode cw = .ok i := by
  constructor
  · intro h
    have checks : ∀ w ∈ legalWords, fieldZ w = 0#2 ∧ (fieldOp w).toNat ≤ 4 ∧
        (fieldE w = 1#1 → fieldOp w = 0b001#3 ∨ fieldOp w = 0b010#3) := by decide
    obtain ⟨hz, hop, htag⟩ := checks cw (List.contains_iff_mem.mp h)
    exact ⟨_, decode_of_checks hz hop htag⟩
  · rintro ⟨i, h⟩
    exact encode_of_decode_eq_ok h ▸ legalWord_encode i

/-! ### The statements of the encoding -/

/-- Settles O1: each row of the table is evaluated; that no other word is accepted is `legalWord_iff_decode`. -/
theorem decoderAcceptsExactlyTheTable : Obligations.DecoderAcceptsExactlyTheTable := by
  refine ⟨?rows, ⟨rfl, rfl, rfl, rfl⟩, legalWord_iff_decode⟩
  case rows => decide

/-- Settles O2: each clause is the branch of the decoder with its name, and the encoder makes it injective. -/
theorem decoderFollowsTheFieldChecks : Obligations.DecoderFollowsTheFieldChecks := by
  refine ⟨fun cw => ?_, fun _ _ _ => decode_injective⟩
  simp only [← fieldE_eq_one_iff, toNat_eq_one_or_two_iff]
  refine ⟨decode_of_highBits, decode_of_reservedOperation, fun hz hop he h1 h2 => ?_, fun hz hop htag => ?_⟩
  · exact decode_of_tag hz hop he (mt (toNat_eq_one_or_two_iff _).mpr (not_or.mpr ⟨h1, h2⟩))
  · exact ⟨_, decode_of_checks hz hop htag, shape_instr _⟩

end Sys2Proof.Encoding
end

section
/-! SUPPORT. The byte-reversal component of R70 byte by byte, for either value of NATIVE, and as the reversal of the byte
sequence that a W-bit value is. The two statements about the component are settled from these. -/

namespace Sys2Proof.ByteReversal

open Sys2Proof Sys2Proof.Machine

/-! ### The component does not depend on NATIVE -/

/-- 00_scope.md section 5.2: the big-endian sequence is the little-endian one read backwards. -/
theorem bytesBE_eq_reverse_bytesLE (v : Word64) (n : Nat) : bytesBE v n = (bytesLE v n).reverse := by
  refine List.ext_getElem (by simp) fun k hk _ => ?_
  simp [bytesBE, bytesLE]

/-- 00_scope.md section 5.2: the same, for reading a sequence as a value. -/
theorem valBE_reverse (bs : List Byte) : valBE bs.reverse = valLE bs := by
  refine byteOf_ext fun k hk => ?_
  rw [byteOf_valBE _ hk, byteOf_valLE _ hk, List.length_reverse]
  split_ifs with h
  · rw [List.getD_reverse _ (by omega), show bs.length - 1 - (bs.length - 1 - k) = k by omega]
  · rw [List.getD_eq_default _ _ (not_lt.mp h)]

/-- R70: the component is one function of the value for both values of `NATIVE`. -/
theorem revBytes_eq_valLE_bytesBE (native : Endian) (v : Word64) (n : Nat) :
    revBytes native v n = valLE (bytesBE v n) := by
  cases native with
  | le => rw [bytesBE_eq_reverse_bytesLE]; rfl
  | be => exact valBE_reverse (bytesBE v n)

/-- R70, for all eight bytes of the port: zero above the value. -/
theorem byteOf_revBytes (native : Endian) (v : Word64) (n : Nat) {k : Nat} (hk : k < 8) :
    byteOf (revBytes native v n) k = if k < n then byteOf v (n - 1 - k) else 0 := by
  rw [revBytes_eq_valLE_bytesBE, byteOf_valLE _ hk]
  split_ifs with h
  · exact getD_bytesBE v h
  · exact List.getD_eq_default _ _ (by simpa using h)

/-- The reversal is a W-bit value, whatever stands above bit W of its operand. -/
theorem truncW_revBytes (native : Endian) (sz : Size) (v : Word64) :
    truncW sz (revBytes native v (sizeBytes sz)) = revBytes native v (sizeBytes sz) := by
  refine byteOf_ext fun k hk => ?_
  rw [byteOf_truncW, byteOf_revBytes _ _ _ hk]
  split_ifs <;> rfl

/-! ### A W-bit value is its byte sequence, and the component reverses that sequence -/

/-- The n bytes of a value, read back, are its low W bits. -/
theorem valLE_bytesLE (sz : Size) (v : Word64) : valLE (bytesLE v (sizeBytes sz)) = truncW sz v := by
  refine byteOf_ext fun k hk => ?_
  rw [byteOf_valLE _ hk, byteOf_truncW]
  split_ifs with h
  · exact getD_bytesLE v h
  · exact List.getD_eq_default _ _ (by simpa using h)

theorem bytesLE_inj {sz : Size} {v w : Word64} (hv : truncW sz v = v) (hw : truncW sz w = w) :
    bytesLE v (sizeBytes sz) = bytesLE w (sizeBytes sz) ↔ v = w := by
  refine ⟨fun h => ?_, fun h => by rw [h]⟩
  rw [← hv, ← hw, ← valLE_bytesLE, ← valLE_bytesLE, h]

/-- R71: the reversal, written low byte first, is the value written high byte first. -/
theorem bytesLE_revBytes (native : Endian) (sz : Size) (v : Word64) :
    bytesLE (revBytes native v (sizeBytes sz)) (sizeBytes sz) = bytesBE v (sizeBytes sz) := by
  refine List.map_congr_left fun k hk => ?_
  have hlt : k < sizeBytes sz := List.mem_range.mp hk
  rw [byteOf_revBytes _ _ _ (hlt.trans_le (sizeBytes_le sz)), if_pos hlt]

/-- R71: at every size, n = 1 included. -/
theorem revBytes_revBytes (native : Endian) {sz : Size} {v : Word64} (hv : truncW sz v = v) :
    revBytes native (revBytes native v (sizeBytes sz)) (sizeBytes sz) = v := by
  rw [← bytesLE_inj (truncW_revBytes _ _ _) hv]
  simp only [bytesLE_revBytes, bytesBE_eq_reverse_bytesLE, List.reverse_reverse]

/-- R71: the values the component returns unchanged are the palindromes. -/
theorem revBytes_eq_self_iff (native : Endian) {sz : Size} {v : Word64} (hv : truncW sz v = v) :
    revBytes native v (sizeBytes sz) = v ↔ (bytesLE v (sizeBytes sz)).reverse = bytesLE v (sizeBytes sz) := by
  rw [← bytesLE_inj (truncW_revBytes _ _ _) hv, bytesLE_revBytes, bytesBE_eq_reverse_bytesLE]

/-! ### The statements of byte reversal -/

/-- Settles O6: the bytes below n of `byteOf_revBytes`. -/
theorem byteReversalExchangesBytes : Obligations.ByteReversalExchangesBytes := by
  intro native sz v _
  refine ⟨fun k hk => ?_, truncW_revBytes native sz v⟩
  rw [byteOf_revBytes _ _ _ (hk.trans_le (sizeBytes_le sz)), if_pos hk]

/-- Settles O7: one byte is a palindrome, and the involution makes the component its own inverse. -/
theorem byteReversalLaws : Obligations.ByteReversalLaws := by
  intro native sz v hv
  refine ⟨fun hn => ?one_byte, revBytes_revBytes native hv, fun w hw h => ?injective,
    ⟨_, truncW_revBytes native sz v, revBytes_revBytes native hv⟩, revBytes_eq_self_iff native hv,
    (bytesLE_revBytes native sz v).symm⟩
  case one_byte =>
    rw [revBytes_eq_self_iff native hv, hn]
    rfl
  case injective => rw [← revBytes_revBytes native hw, h, revBytes_revBytes native hv]

end Sys2Proof.ByteReversal
end

section
/-! SUPPORT. The swap datapath of R80 and R81 in terms of byte sequences: `native_val` and `native_bytes` undo each other,
reading or writing in the other order is doing so backwards, and one byte has one order. So the datapath reads and writes
in the order of the tag, whatever `NATIVE` is; the statement about the closed forms is settled from this. -/

namespace Sys2Proof.FixedWidth

open Sys2Proof Sys2Proof.Machine Sys2Proof.ByteReversal

/-! ### Two byte orders -/

/-- 00_scope.md section 5.2: reading a sequence in the other order is reading it backwards. -/
theorem nativeVal_reverse {e native : Endian} (h : e ≠ native) (bs : List Byte) :
    nativeVal native bs.reverse = nativeVal e bs := by
  match e, native, h with
  | .le, .be, _ => exact valBE_reverse bs
  | .be, .le, _ => exact (valBE_reverse bs.reverse).symm.trans (congrArg valBE bs.reverse_reverse)

/-- 00_scope.md section 5.2: the sequence in the other order is the sequence backwards. -/
theorem reverse_nativeBytes {e native : Endian} (h : e ≠ native) (v : Word64) (n : Nat) :
    (nativeBytes native v n).reverse = nativeBytes e v n := by
  match e, native, h with
  | .le, .be, _ => exact List.reverse_eq_iff.mpr (bytesBE_eq_reverse_bytesLE v n)
  | .be, .le, _ => exact (bytesBE_eq_reverse_bytesLE v n).symm

theorem bytesLE_valLE {bs : List Byte} (h : bs.length ≤ 8) : bytesLE (valLE bs) bs.length = bs := by
  refine List.ext_getElem (length_bytesLE _ _) fun k _ hk => ?_
  calc (bytesLE (valLE bs) bs.length)[k] = byteOf (valLE bs) k := by simp [bytesLE]
    _ = bs.getD k 0 := byteOf_valLE bs (hk.trans_le h)
    _ = bs[k] := (List.getElem_eq_getD 0).symm

/-- 00_scope.md section 5.2: a sequence of n bytes is the byte sequence of the value read from it, in either order. -/
theorem nativeBytes_nativeVal (native : Endian) {sz : Size} {bs : List Byte} (hlen : bs.length = sizeBytes sz) :
    nativeBytes native (nativeVal native bs) (sizeBytes sz) = bs := by
  have hle : bs.length ≤ 8 := hlen.trans_le (sizeBytes_le sz)
  rw [← hlen]
  cases native with
  | le => exact bytesLE_valLE hle
  | be =>
    calc nativeBytes .be (nativeVal .be bs) bs.length
        = (bytesLE (valLE bs.reverse) bs.reverse.length).reverse := by
          rw [← reverse_nativeBytes (native := .le) (by decide), ← nativeVal_reverse (native := .le) (by decide),
            List.length_reverse]
          rfl
      _ = bs := by rw [bytesLE_valLE (by rwa [List.length_reverse]), List.reverse_reverse]

/-! ### The datapath reads and writes in the order of the tag -/

theorem swapIf_self (e : Endian) (sz : Size) (v : Word64) : swapIf e e sz v = v := by simp [swapIf, swaps]

/-- R80, R81: where the tag is not `NATIVE`, the reversal is in the path unless the value is one byte. -/
theorem swapIf_of_ne {e native : Endian} (h : e ≠ native) (sz : Size) (v : Word64) :
    swapIf native e sz v = if sizeBytes sz = 1 then v else revBytes native v (sizeBytes sz) := by
  have hpos := sizeBytes_pos sz
  have hlt : 1 < sizeBytes sz ↔ ¬ sizeBytes sz = 1 := by omega
  simp [swapIf, swaps, h, hlt]

/-- R82: the path of an extract, `native_val` and the switched reversal, is `val_E`. -/
theorem swapIf_nativeVal (native e : Endian) {sz : Size} {bs : List Byte} (hlen : bs.length = sizeBytes sz) :
    swapIf native e sz (nativeVal native bs) = nativeVal e bs := by
  by_cases he : e = native
  · rw [he, swapIf_self]
  · rw [swapIf_of_ne he]
    split_ifs with hone
    · obtain ⟨b, rfl⟩ := List.length_eq_one_iff.mp (hlen.trans hone)
      exact nativeVal_reverse he [b]
    · rw [revBytes, nativeBytes_nativeVal native hlen, nativeVal_reverse he]

/-- R82: the path of an append, the switched reversal and `native_bytes`, is `bytes_E`. -/
theorem nativeBytes_swapIf (native e : Endian) (sz : Size) (v : Word64) :
    nativeBytes native (swapIf native e sz v) (sizeBytes sz) = nativeBytes e v (sizeBytes sz) := by
  by_cases he : e = native
  · rw [he, swapIf_self]
  · rw [swapIf_of_ne he]
    split_ifs with hone
    · rw [← reverse_nativeBytes he, hone]
      cases native <;> rfl
    · rw [revBytes, reverse_nativeBytes he, nativeBytes_nativeVal native (length_nativeBytes ..)]

/-! ### The commands -/

/-- `MemRead` of the bytes of a `MemWrite` returns them (R31, R32). -/
theorem readBytes_writeBytes (m : Memory) (a : Nat) (bs : List Byte) :
    (m.writeBytes a bs).readBytes a bs.length = bs := by
  refine List.ext_getElem (Memory.length_readBytes _ _ _) fun k hk hk' => ?_
  rw [Memory.getElem_readBytes, Memory.read_writeBytes, if_pos (by omega), Nat.add_sub_cancel_left,
    List.getElem_eq_getD 0]

theorem exec_ext (e : Endian) (sz : Size) (s : State) : exec (Shape.ext e sz).instr s = s.extract e sz := by
  cases e <;> cases sz <;> rfl

theorem exec_app (e : Endian) (sz : Size) (s : State) : exec (Shape.app e sz).instr s = s.append e sz := by
  cases e <;> cases sz <;> rfl

/-- R82 for an extract: it completes, with `val_E` of its n bytes in the response. -/
theorem exec_ext_val (e : Endian) {sz : Size} {s : State} (h : s.mayAccessRange s.cmd.ptr (sizeBytes sz)) :
    ∃ u r, exec (Shape.ext e sz).instr s = .next u ∧ u.rsp = some r ∧
      r.val = nativeVal e (s.mem.readBytes s.cmd.ptr (sizeBytes sz)) :=
  ⟨_, _, (exec_ext e sz s).trans (State.withBuffer_next _ h), State.extractEffect_rsp s e sz,
    swapIf_nativeVal s.cfg.native e (Memory.length_readBytes _ _ _)⟩

/-- R82 for an append: it writes `bytes_E` of the source value. -/
theorem appendedBytes_eq (s : State) (e : Endian) (sz : Size) :
    s.appendedBytes e sz = nativeBytes e (s.source sz) (sizeBytes sz) :=
  nativeBytes_swapIf s.cfg.native e sz (s.source sz)

/-- R82 for an append: it completes, and leaves `bytes_E` of the source value at `cmd.ptr`. -/
theorem exec_app_readBytes (e : Endian) {sz : Size} {s : State} (h : s.mayAccessRange s.cmd.ptr (sizeBytes sz)) :
    ∃ u, exec (Shape.app e sz).instr s = .next u ∧
      u.mem.readBytes s.cmd.ptr (sizeBytes sz) = nativeBytes e (s.source sz) (sizeBytes sz) := by
  refine ⟨_, (exec_app e sz s).trans (State.withBuffer_next _ h), ?_⟩
  rw [State.appendEffect_mem, appendedBytes_eq]
  simpa only [length_nativeBytes] using
    readBytes_writeBytes s.mem s.cmd.ptr (nativeBytes e (s.source sz) (sizeBytes sz))

/-! ### The statement of the closed forms -/

/-- Settles O12: each clause is the law of its command at one of the two tags, where `NATIVE` is already gone. -/
theorem fixedWidthClosedForms : Obligations.FixedWidthClosedForms := by
  intro sz s h
  exact ⟨exec_ext_val .le h, exec_ext_val .be h, exec_app_readBytes .le h, exec_app_readBytes .be h⟩

end Sys2Proof.FixedWidth
end

section
/-! SUPPORT. A `vdec` as a function of the bytes it reads (R126): their count is unique, the OR of their groups is a sum,
and a decode that may read them ends in one state. The bytes of a `venc` (R110) as a function of the value: where their
continuation bits stand, and that their groups sum to the value (R60). The statement that a decode undoes an encode is
settled from these. -/

namespace Sys2Proof.Varint

open Sys2Proof Sys2Proof.Machine

/-! ### The count of a decode -/

theorem decodesBytes_le {s : State} {k k' : Nat} (h : s.decodesBytes k) (h' : s.decodesBytes k') : k ≤ k' := by
  obtain ⟨hlen, hcont, -⟩ := h
  obtain ⟨-, -, hlast⟩ := h'
  by_contra hlt
  obtain ⟨hpos, hstop⟩ := hlast (by omega)
  rw [hcont (k' - 1) (by omega)] at hstop
  cases hstop

theorem decodesBytes_unique {s : State} {k k' : Nat} (h : s.decodesBytes k) (h' : s.decodesBytes k') : k = k' :=
  (decodesBytes_le h h').antisymm (decodesBytes_le h' h)

/-! ### The value of a decode -/

/-- `k` groups fill no more than 7k bits. -/
theorem sum_group_lt (b : Nat → Byte) (k : Nat) :
    ((Finset.range k).sum fun i => (group (b i)).toNat * 2 ^ (7 * i)) < 2 ^ (7 * k) := by
  induction k with
  | zero => simp
  | succ k ih =>
    have hg : (group (b k)).toNat + 1 ≤ 2 ^ 7 := (group (b k)).isLt
    calc ((Finset.range (k + 1)).sum fun i => (group (b i)).toNat * 2 ^ (7 * i))
      _ < ((group (b k)).toNat + 1) * 2 ^ (7 * k) := by rw [Finset.sum_range_succ]; linarith
      _ ≤ 2 ^ 7 * 2 ^ (7 * k) := Nat.mul_le_mul_right _ hg
      _ = 2 ^ (7 * (k + 1)) := by rw [← pow_add, Nat.mul_succ, Nat.add_comm]

/-- R125: no two groups share a bit, so the OR into `acc` is the addition of R126. -/
theorem decodedValue_succ (s : State) (sz : Size) (k : Nat) :
    s.decodedValue sz (k + 1) = s.decodedValue sz k ||| placedGroup sz (s.bufferByte k) k := by
  rw [State.decodedValue, State.decodedValue, placedGroup, ← BitVec.ofNat_or, ← Nat.or_mod_two_pow, Nat.or_comm,
    ← Nat.shiftLeft_add_eq_or_of_lt (sum_group_lt s.bufferByte k), Finset.sum_range_succ, Nat.shiftLeft_eq,
    Nat.add_comm]

/-- R125: the registers after `k` bytes. -/
theorem vdecRead_iterate (s : State) (sz : Size) {k : Nat} (hk : k ≤ 255) :
    (fun u : State => u.vdecRead sz)^[k] s.vdecStart =
      { s with
          acc := s.decodedValue sz k
          idx := BitVec.ofNat 8 k
          bt := if k = 0 then s.bt else s.bufferByte (k - 1) } := by
  induction k with
  | zero => simp [State.vdecStart, State.decodedValue]
  | succ k ih =>
    have hidx : (BitVec.ofNat 8 k).toNat = k := Nat.mod_eq_of_lt (by omega)
    rw [Function.iterate_succ_apply', ih (by omega), decodedValue_succ]
    simp [State.vdecRead, State.codecAddr, State.bufferByte, hidx, BitVec.ofNat_add]

/-- The first byte of a decode is read at `cmd.ptr`. -/
@[simp] theorem codecAddr_vdecStart (s : State) : s.vdecStart.codecAddr = s.cmd.ptr := rfl

@[simp] theorem mayAccess_vdecStart (s : State) (a : Nat) : s.vdecStart.mayAccess a = s.mayAccess a := rfl

theorem exec_vdec (sz : Size) (s : State) : exec (Shape.vdec sz).instr s = s.vdec sz := by cases sz <;> rfl

/-- R126: what a decode that may read its `k` bytes leaves. -/
theorem exec_vdec_next (sz : Size) {s : State} {k : Nat} (hk : s.decodesBytes k)
    (hacc : s.mayAccessRange s.cmd.ptr k) :
    exec (Shape.vdec sz).instr s = .next
      { s with
          acc := s.decodedValue sz k
          idx := BitVec.ofNat 8 k
          bt := if k = 0 then s.bt else s.bufferByte (k - 1)
          busy := false
          rsp := some { val := s.decodedValue sz k, cnt := BitVec.ofNat 8 k, err := false } } := by
  have hcount : s.count ≤ 255 := Nat.le_of_lt_succ s.cmd.len.isLt
  rw [exec_vdec, State.vdec]
  rcases State.vdecLoop_cases sz s.count s.vdecStart (by simpa using hcount) with
    ⟨k', hle, -, hcont, hlast, hrun⟩ | ⟨j, hlt, -, hcont, hbad, -⟩
  case inl =>
    simp only [codecAddr_vdecStart, State.vdecStart_mem] at hcont hlast
    obtain rfl : k' = k := decodesBytes_unique ⟨hle, hcont, hlast⟩ hk
    rw [hrun, vdecRead_iterate s sz (hle.trans hcount)]
    rfl
  case inr =>
    simp only [codecAddr_vdecStart, mayAccess_vdecStart, State.vdecStart_mem] at hcont hbad
    obtain ⟨-, -, hlast⟩ := hk
    have hkj : k ≤ j := by
      by_contra h
      exact absurd (hacc j (by omega)) (Bool.eq_false_iff.mp hbad)
    obtain ⟨hpos, hstop⟩ := hlast (by show k < s.count; omega)
    exact absurd (hcont (k - 1) (by omega)) (Bool.eq_false_iff.mp hstop)

/-! ### The bytes of an encode -/

theorem toNat_truncW (sz : Size) (v : Word64) : (truncW sz v).toNat = v.toNat % 2 ^ sizeBits sz := by
  rw [truncW, BitVec.toNat_setWidth, BitVec.toNat_setWidth]
  exact Nat.mod_eq_of_lt ((Nat.mod_le _ _).trans_lt v.isLt)

theorem group_continuationByte (rem : Word64) : (group (continuationByte rem)).toNat = rem.toNat % 2 ^ 7 := by
  have h : group (continuationByte rem) = rem.setWidth 7 := by
    rw [group, continuationByte, BitVec.extractLsb'_or]
    refine BitVec.eq_of_getLsbD_eq fun i hi => ?_
    simp [hi, Nat.lt_succ_of_lt hi]
  rw [h, BitVec.toNat_setWidth]

theorem continues_continuationByte (rem : Word64) : continues (continuationByte rem) = true := by
  simp [continues, continuationByte]

theorem group_finalByte {rem : Word64} (h : rem.toNat < 2 ^ 7) : (group (finalByte rem)).toNat = rem.toNat := by
  simp [group, finalByte]
  omega

theorem continues_finalByte {rem : Word64} (h : rem.toNat < 2 ^ 7) : continues (finalByte rem) = false := by
  have h7 : rem.getLsbD 7 = false := Nat.testBit_lt_two_pow h
  simpa [continues, finalByte] using h7

/-- The induction of the loop of R110 on a value that its fuel is enough for. -/
theorem vencBytes_induction {P : Word64 → List Byte → Prop}
    (final : ∀ rem : Word64, rem.toNat < 2 ^ 7 → P rem [finalByte rem])
    (more : ∀ (rem : Word64) (bs : List Byte), 0 < bs.length → P (rem >>> 7) bs →
      P rem (continuationByte rem :: bs))
    (fuel : Nat) (rem : Word64) (h : rem.toNat < 2 ^ (7 * (fuel + 1))) : P rem (vencBytes fuel rem) := by
  induction fuel generalizing rem with
  | zero => exact final rem h
  | succ fuel ih =>
    rw [vencBytes]
    split_ifs with hmore
    · refine more rem _ (vencBytes_length_pos _ _) (ih _ ?_)
      rw [BitVec.toNat_ushiftRight, Nat.shiftRight_eq_div_pow]
      exact Nat.div_lt_of_lt_mul (by rwa [← pow_add, Nat.add_comm, ← Nat.mul_succ])
    · exact final rem (by simpa [moreRemains, Nat.lt_succ_iff] using hmore)

/-- R111: every byte but the last has its continuation bit set, and the last has it clear. -/
theorem continues_vencBytes {fuel : Nat} {v : Word64} (h : v.toNat < 2 ^ (7 * (fuel + 1))) :
    ∀ j < (vencBytes fuel v).length,
      continues ((vencBytes fuel v).getD j 0) = decide (j + 1 < (vencBytes fuel v).length) := by
  refine vencBytes_induction (P := fun _ bs => ∀ j < bs.length, continues (bs.getD j 0) = decide (j + 1 < bs.length))
    (fun rem hrem j hj => ?final) (fun rem bs hbs ih j hj => ?more) fuel v h
  case final =>
    obtain rfl : j = 0 := Nat.lt_one_iff.mp hj
    exact continues_finalByte hrem
  case more =>
    cases j with
    | zero => simpa [continues_continuationByte] using hbs
    | succ j => simpa using ih j (Nat.lt_of_succ_lt_succ hj)

/-- R60: the groups of the bytes, 7 bits each from the lowest on, are the value. -/
theorem sum_group_vencBytes {fuel : Nat} {v : Word64} (h : v.toNat < 2 ^ (7 * (fuel + 1))) :
    ((Finset.range (vencBytes fuel v).length).sum fun i =>
      (group ((vencBytes fuel v).getD i 0)).toNat * 2 ^ (7 * i)) = v.toNat := by
  refine vencBytes_induction
    (P := fun v bs => ((Finset.range bs.length).sum fun i => (group (bs.getD i 0)).toNat * 2 ^ (7 * i)) = v.toNat)
    (fun rem hrem => ?final) (fun rem bs _ ih => ?more) fuel v h
  case final => simpa using group_finalByte hrem
  case more =>
    rw [BitVec.toNat_ushiftRight, Nat.shiftRight_eq_div_pow] at ih
    rw [List.length_cons, Finset.sum_range_succ']
    simp only [List.getD_cons_succ, List.getD_cons_zero, group_continuationByte, Nat.mul_succ, pow_add, ← mul_assoc,
      ← Finset.sum_mul, ih, Nat.mul_zero, pow_zero, mul_one]
    exact Nat.div_add_mod' _ _

theorem exec_venc (sz : Size) (s : State) : exec (Shape.venc sz).instr s = s.venc sz := by cases sz <;> rfl

theorem toNat_source_lt (s : State) (sz : Size) : (s.source sz).toNat < 2 ^ sizeBits sz := by
  rw [State.source, toNat_truncW]
  exact Nat.mod_lt _ (by positivity)

/-- R113: a W-bit value needs no more iterations than the loop of R110 is given. -/
theorem toNat_source_lt_fuel (s : State) (sz : Size) : (s.source sz).toNat < 2 ^ (7 * (maxlen sz + 1)) :=
  (toNat_source_lt s sz).trans_le (Nat.pow_le_pow_right (by decide) (by cases sz <;> decide))

/-! ### A decode of the bytes of an encode -/

section

variable {w : State} {fuel : Nat} {v : Word64} (hv : v.toNat < 2 ^ (7 * (fuel + 1)))
  (hread : ∀ j < (vencBytes fuel v).length, w.bufferByte j = (vencBytes fuel v).getD j 0)

include hv hread

/-- R119: the decoder stops at the terminating byte, wherever in `cmd.len` it stands. -/
theorem decodesBytes_vencBytes (hlen : (vencBytes fuel v).length ≤ w.cmd.len.toNat) :
    w.decodesBytes (vencBytes fuel v).length := by
  have hpos := vencBytes_length_pos fuel v
  have hcont := continues_vencBytes hv
  refine ⟨hlen, fun j hj => ?before, fun _ => ⟨hpos, ?last⟩⟩
  case before => rw [hread j (by omega), hcont j (by omega), decide_eq_true hj]
  case last =>
    rw [hread _ (by omega), hcont _ (by omega)]
    exact decide_eq_false (by omega)

/-- R119: a width that holds the value cuts nothing of it. -/
theorem decodedValue_vencBytes {sz : Size} (hsz : v.toNat < 2 ^ sizeBits sz) :
    w.decodedValue sz (vencBytes fuel v).length = v := by
  rw [State.decodedValue, Finset.sum_congr rfl fun i hi => by rw [hread i (Finset.mem_range.mp hi)],
    sum_group_vencBytes hv, Nat.mod_eq_of_lt hsz, BitVec.ofNat_toNat, BitVec.setWidth_eq]

end

/-! ### The statement of the round trip -/

/-- Settles O24: the bytes that stand are those of the encode, and the source value fits the greater width. -/
theorem encodeThenDecode : Obligations.EncodeThenDecode := by
  intro sz sz' s u w r hsz hexec hr hptr hlen hacc hmem
  obtain ⟨-, rfl⟩ := State.withBuffer_eq_next ((exec_venc sz s).symm.trans hexec)
  rw [State.venc_effect] at hr hmem
  cases hr
  have hcnt : (BitVec.ofNat 8 (vencBytes (maxlen sz) (s.source sz)).length).toNat =
      (vencBytes (maxlen sz) (s.source sz)).length := by
    have hle := vencBytes_length_le (maxlen sz) (s.source sz)
    have hmax : maxlen sz ≤ 10 := by cases sz <;> decide
    exact Nat.mod_eq_of_lt (by omega)
  simp only [hcnt] at hlen hacc hmem
  have hread : ∀ j < (vencBytes (maxlen sz) (s.source sz)).length,
      w.bufferByte j = (vencBytes (maxlen sz) (s.source sz)).getD j 0 := fun j hj => by
    rw [State.bufferByte, hptr, hmem j hj, State.respond_mem, Memory.read_writeBytes, if_pos (by omega),
      Nat.add_sub_cancel_left]
  have hv := toNat_source_lt_fuel s sz
  have hsource : (s.source sz).toNat < 2 ^ sizeBits sz' :=
    (toNat_source_lt s sz).trans_le (Nat.pow_le_pow_right (by decide) hsz)
  have hnext := exec_vdec_next sz' (decodesBytes_vencBytes hv hread hlen) (hptr ▸ hacc)
  rw [decodedValue_vencBytes hv hread hsource] at hnext
  exact ⟨_, hnext, rfl⟩

end Sys2Proof.Varint
end

section
/-! SUPPORT. A `vdec` whose buffer holds no terminating byte: its count is all of `cmd.len`, so the law of R126 names the
state it leaves. The statement about such a decode is settled from this. -/

namespace Sys2Proof.VarintDecode

open Sys2Proof Sys2Proof.Machine

/-- R128: with no terminating byte among the `cmd.len` bytes, the count of R126 is `cmd.len` itself. -/
theorem decodesBytes_len_of_continues {s : State}
    (hcont : ∀ j, j < s.cmd.len.toNat → continues (s.bufferByte j) = true) : s.decodesBytes s.cmd.len.toNat :=
  ⟨le_rfl, fun j hj => hcont j (Nat.lt_of_succ_lt hj), fun hlt => absurd hlt (lt_irrefl _)⟩

/-- Settles O22: the law of R126 at the count `cmd.len`, where no byte has ended the loop. -/
theorem decodeWithoutTerminator : Obligations.DecodeWithoutTerminator := by
  intro sz s hcont hacc
  have hnext := Varint.exec_vdec_next sz (decodesBytes_len_of_continues hcont) hacc
  have hcnt : BitVec.ofNat 8 s.cmd.len.toNat = s.cmd.len := by rw [BitVec.ofNat_toNat, BitVec.setWidth_eq]
  rw [hcnt] at hnext
  exact ⟨_, hnext, rfl, rfl⟩

end Sys2Proof.VarintDecode
end

section
/-! SUPPORT. The laws of the five families side by side: each says what a command that may access its bytes answers, and
in each answer `rsp.err` is 0. The statement that no fault depends on data is settled from these. -/

namespace Sys2Proof.Exceptions

open Sys2Proof Sys2Proof.Machine

/-- R56: every command is that of its shape. -/
theorem instr_shape (i : Instr) : i.shape.instr = i := by
  obtain ⟨-, -, hi⟩ := Encoding.wordShape_statement i
  exact hi

theorem exec_rev (sz : Size) (s : State) : exec (Shape.rev sz).instr s = s.reverse sz := by cases sz <;> rfl

/-- Settles O26: the bytes of R37's table are those the law of each family asks for, and no operand and no byte stands in
the `rsp.err` of the law. -/
theorem noFaultDependsOnData : Obligations.NoFaultDependsOnData := by
  intro i s k hk hacc
  obtain ⟨sh, rfl⟩ : ∃ sh : Shape, sh.instr = i := ⟨i.shape, instr_shape i⟩
  rw [State.requiresBytes, Encoding.shape_instr] at hk
  cases sh with
  | rev sz => exact ⟨_, _, exec_rev sz s, rfl, rfl, rfl⟩
  | ext e sz =>
    obtain rfl : k = sizeBytes sz := hk
    exact ⟨_, _, (FixedWidth.exec_ext e sz s).trans (State.withBuffer_next _ hacc),
      State.extractEffect_busy s e sz, State.extractEffect_rsp s e sz, rfl⟩
  | app e sz =>
    obtain rfl : k = sizeBytes sz := hk
    exact ⟨_, _, (FixedWidth.exec_app e sz s).trans (State.withBuffer_next _ hacc),
      State.appendEffect_busy s e sz, State.appendEffect_rsp s e sz, rfl⟩
  | venc sz =>
    obtain rfl : k = maxlen sz := hk
    exact ⟨_, _, (Varint.exec_venc sz s).trans (State.withBuffer_next _ hacc),
      State.vencFinish_busy _, State.vencFinish_rsp _, rfl⟩
  | vdec sz => exact ⟨_, _, Varint.exec_vdec_next sz hk hacc, rfl, rfl, rfl⟩

end Sys2Proof.Exceptions
end

section
/-! SUPPORT. The length of an encoding (R61, R112) as bounds on the value, and the bytes of a `venc` (R110) by their
number and by their groups. The statements about the length are settled from the bounds. -/

namespace Sys2Proof.EncodedLength

open Sys2Proof Sys2Proof.Machine

/-! ### The length formula -/

/-- 00_scope.md section 5.1: `bit_length` is the least number of bits that hold the value. -/
theorem bitLength_le_iff (v : Word64) (m : Nat) : bitLength v ≤ m ↔ v.toNat < 2 ^ m := by
  rw [bitLength]
  split_ifs with h
  · simp [h]
  · have hne : v.toNat ≠ 0 := by simpa [BitVec.toNat_eq] using h
    rw [Nat.succ_le_iff, Nat.log2_lt hne]

/-- R61: the rows of the length table do not overlap and leave no value out. -/
theorem encodedLength_eq_iff (v : Word64) (L : Nat) : encodedLength v = L ↔
    1 ≤ L ∧ v.toNat < 2 ^ (7 * L) ∧ (1 < L → 2 ^ (7 * (L - 1)) ≤ v.toNat) := by
  rw [← bitLength_le_iff, ← not_lt (a := v.toNat), ← bitLength_le_iff, encodedLength]
  omega

theorem one_le_encodedLength (v : Word64) : 1 ≤ encodedLength v := ((encodedLength_eq_iff v _).mp rfl).1

theorem toNat_lt_of_encodedLength (v : Word64) : v.toNat < 2 ^ (7 * encodedLength v) :=
  ((encodedLength_eq_iff v _).mp rfl).2.1

/-- R112: a value of W bits takes no more than `ceil(W / 7)` bytes. -/
theorem encodedLength_le_maxlen {sz : Size} {v : Word64} (h : v.toNat < 2 ^ sizeBits sz) :
    encodedLength v ≤ maxlen sz := by
  have hW : 1 ≤ sizeBits sz := by cases sz <;> decide
  have hbits : bitLength v ≤ sizeBits sz := (bitLength_le_iff v _).mpr h
  rw [encodedLength, maxlen]
  omega

/-! ### The bytes of an encode -/

theorem moreRemains_iff (rem : Word64) : moreRemains rem = true ↔ 2 ^ 7 ≤ rem.toNat := by
  simp [moreRemains, Nat.succ_le_iff]

theorem toNat_shiftRight_7 (v : Word64) : (v >>> 7).toNat = v.toNat / 2 ^ 7 := by
  rw [BitVec.toNat_ushiftRight, Nat.shiftRight_eq_div_pow]

/-- R113: what one turn of the loop of R110 leaves needs one turn less. -/
theorem shiftRight_7_lt {fuel : Nat} {v : Word64} (h : v.toNat < 2 ^ (7 * (fuel + 1))) :
    (v >>> 7).toNat < 2 ^ (7 * fuel) := by
  rw [toNat_shiftRight_7]
  exact Nat.div_lt_of_lt_mul (by rwa [← pow_add, Nat.add_comm, ← Nat.mul_succ])

/-- R110: shifting out one group takes one byte off the encoding, as long as there are more groups. -/
theorem encodedLength_shiftRight {v : Word64} (h : 2 ^ 7 ≤ v.toNat) :
    encodedLength v = encodedLength (v >>> 7) + 1 := by
  obtain ⟨hpos, hlt, hge⟩ := (encodedLength_eq_iff (v >>> 7) _).mp rfl
  rw [toNat_shiftRight_7] at hlt hge
  rw [encodedLength_eq_iff, Nat.add_sub_cancel, Nat.mul_succ, Nat.pow_add]
  refine ⟨by omega, by omega, fun _ => ?_⟩
  obtain hone | hmore : encodedLength (v >>> 7) = 1 ∨ 1 < encodedLength (v >>> 7) := by omega
  · rw [hone]
    exact h
  · have hstep : 7 * encodedLength (v >>> 7) = 7 * (encodedLength (v >>> 7) - 1) + 7 := by omega
    have := hge hmore
    rw [hstep, Nat.pow_add]
    omega

/-- R112: the loop of R110 writes as many bytes as the length formula says. -/
theorem length_vencBytes {fuel : Nat} {v : Word64} (h : v.toNat < 2 ^ (7 * (fuel + 1))) :
    (vencBytes fuel v).length = encodedLength v := by
  have one {w : Word64} (hw : w.toNat < 2 ^ 7) : encodedLength w = 1 := by
    rw [encodedLength_eq_iff]
    exact ⟨le_rfl, hw, fun hlt => absurd hlt (lt_irrefl 1)⟩
  induction fuel generalizing v with
  | zero => exact (one h).symm
  | succ fuel ih =>
    rw [vencBytes]
    split_ifs with hmore
    · rw [List.length_cons, ih (shiftRight_7_lt h), ← encodedLength_shiftRight ((moreRemains_iff v).mp hmore)]
    · exact (one (not_le.mp (mt (moreRemains_iff v).mpr hmore))).symm

theorem groupOf_succ (v : Word64) (i : Nat) : groupOf v (i + 1) = groupOf (v >>> 7) i := by
  refine BitVec.eq_of_getLsbD_eq fun j hj => ?_
  simp [groupOf, Nat.mul_succ, Nat.add_comm, Nat.add_left_comm]

theorem continuationByte_eq (rem : Word64) : continuationByte rem = 0x80#8 ||| (groupOf rem 0).setWidth 8 := rfl

theorem finalByte_eq {rem : Word64} (h : rem.toNat < 2 ^ 7) : finalByte rem = (groupOf rem 0).setWidth 8 := by
  apply BitVec.eq_of_toNat_eq
  simp [finalByte, groupOf]
  omega

/-- R111: byte `k` of an encode carries group `k`, with the continuation flag on every byte but the last. -/
theorem getD_vencBytes {fuel : Nat} {v : Word64} (h : v.toNat < 2 ^ (7 * (fuel + 1))) :
    ∀ k < (vencBytes fuel v).length, (vencBytes fuel v).getD k 0 =
      if k + 1 < (vencBytes fuel v).length then 0x80#8 ||| (groupOf v k).setWidth 8 else (groupOf v k).setWidth 8 := by
  refine Varint.vencBytes_induction
    (P := fun v bs => ∀ k < bs.length, bs.getD k 0 =
      if k + 1 < bs.length then 0x80#8 ||| (groupOf v k).setWidth 8 else (groupOf v k).setWidth 8)
    (fun rem hrem k hk => ?final) (fun rem bs hbs ih k hk => ?more) fuel v h
  case final =>
    obtain rfl : k = 0 := Nat.lt_one_iff.mp hk
    exact finalByte_eq hrem
  case more =>
    cases k with
    | zero => simpa [hbs] using continuationByte_eq rem
    | succ k => simpa [groupOf_succ] using ih k (Nat.lt_of_succ_lt_succ hk)

/-- R111: the last group of a value is the part of it above the groups before. -/
theorem toNat_groupOf_last (v : Word64) :
    (groupOf v (encodedLength v - 1)).toNat = v.toNat / 2 ^ (7 * (encodedLength v - 1)) := by
  have hpos := one_le_encodedLength v
  have hlt := toNat_lt_of_encodedLength v
  rw [show 7 * encodedLength v = 7 * (encodedLength v - 1) + 7 by omega, Nat.pow_add] at hlt
  rw [groupOf, BitVec.extractLsb'_toNat, Nat.shiftRight_eq_div_pow]
  exact Nat.mod_eq_of_lt (Nat.div_lt_of_lt_mul hlt)

/-- R111: the last byte is zero for the value 0 only. -/
theorem eq_zero_of_groupOf_last {v : Word64} (h : groupOf v (encodedLength v - 1) = 0) :
    v = 0 ∧ encodedLength v = 1 := by
  obtain ⟨hpos, -, hge⟩ := (encodedLength_eq_iff v _).mp rfl
  have hlt : v.toNat < 2 ^ (7 * (encodedLength v - 1)) := by
    have hdiv := toNat_groupOf_last v
    rw [h] at hdiv
    exact (Nat.div_eq_zero_iff_lt (by positivity)).mp hdiv.symm
  have hone : encodedLength v = 1 := by
    by_contra hne
    exact absurd (hge (by omega)) (not_le.mpr hlt)
  rw [hone] at hlt
  exact ⟨BitVec.eq_of_toNat_eq (Nat.lt_one_iff.mp hlt), hone⟩

/-! ### The statements of the length -/

/-- Settles O17: `encodedLength_eq_iff` for every row. -/
theorem encodedLengthTable : Obligations.EncodedLengthTable := encodedLength_eq_iff

/-- Settles O16: a value cut to W bits lies below 2^W. -/
theorem encodedLengthIsBounded : Obligations.EncodedLengthIsBounded := by
  refine ⟨⟨rfl, rfl, rfl, rfl⟩, fun sz v => ⟨one_le_encodedLength _, encodedLength_le_maxlen ?_⟩⟩
  rw [Varint.toNat_truncW]
  exact Nat.mod_lt _ (by positivity)

end Sys2Proof.EncodedLength
end

section
/-! SUPPORT. The decode command in every state: its count exists (R126), it stops at the first byte it may not read
(R135), and its step view ends as it does (R136). The statements about `vdec` are settled from these and from the law of
R126. -/

namespace Sys2Proof.DecodeCommand

open Sys2Proof Sys2Proof.Machine Sys2Proof.Varint

/-! ### The count -/

/-- R126: the count is one past the first terminating byte, or `cmd.len` where there is none. -/
theorem exists_decodesBytes (s : State) : ∃ k, s.decodesBytes k := by
  classical
  by_cases hall : ∀ j, j < s.cmd.len.toNat → continues (s.bufferByte j) = true
  · exact ⟨_, VarintDecode.decodesBytes_len_of_continues hall⟩
  · have hex : ∃ j, j < s.cmd.len.toNat ∧ continues (s.bufferByte j) = false := by simpa using hall
    obtain ⟨hlt, hstop⟩ := Nat.find_spec hex
    refine ⟨Nat.find hex + 1, hlt, fun j hj => ?_, fun _ => ⟨Nat.succ_pos _, hstop⟩⟩
    have hbefore := Nat.find_min hex (Nat.lt_of_succ_lt_succ hj)
    simpa [show j < s.cmd.len.toNat by omega] using hbefore

/-- R126: a decode reads every byte up to one whose predecessors all have their continuation bit set. -/
theorem lt_of_decodesBytes {s : State} {k j : Nat} (hk : s.decodesBytes k) (hj : j < s.cmd.len.toNat)
    (hcont : ∀ l, l < j → continues (s.bufferByte l) = true) : j < k := by
  obtain ⟨-, -, hlast⟩ := hk
  by_contra hle
  obtain ⟨hpos, hstop⟩ := hlast (by omega)
  exact absurd (hcont (k - 1) (by omega)) (Bool.eq_false_iff.mp hstop)

/-! ### The fault -/

/-- R135: among the bytes a decode reads, the first that may not be accessed stops it. -/
theorem exec_vdec_fault (sz : Size) {s : State} {k j : Nat} (hk : s.decodesBytes k) (hj : j < k)
    (hacc : s.mayAccessRange s.cmd.ptr j) (hbad : s.mayAccess (s.cmd.ptr + j) = false) :
    exec (Shape.vdec sz).instr s = .fault (.bufferPrecondition s.cmd (s.cmd.ptr + j)) := by
  have hcount : s.count ≤ 255 := Nat.le_of_lt_succ s.cmd.len.isLt
  rw [exec_vdec, State.vdec]
  rcases State.vdecLoop_cases sz s.count s.vdecStart (by simpa using hcount) with
    ⟨k', hle, hacc', hcont, hlast, -⟩ | ⟨j', hlt, hacc', hcont, hbad', hrun⟩
  case inl =>
    simp only [codecAddr_vdecStart, mayAccess_vdecStart, State.vdecStart_mem] at hacc' hcont hlast
    obtain rfl : k' = k := decodesBytes_unique ⟨hle, hcont, hlast⟩ hk
    exact absurd (hacc' j hj) (Bool.eq_false_iff.mp hbad)
  case inr =>
    simp only [codecAddr_vdecStart, mayAccess_vdecStart, State.vdecStart_mem] at hacc' hcont hbad' hrun
    obtain rfl : j' = j := by
      rcases lt_trichotomy j' j with h | h | h
      · exact absurd (hacc j' h) (Bool.eq_false_iff.mp hbad')
      · exact h
      · exact absurd (hacc' j h) (Bool.eq_false_iff.mp hbad)
    rw [hrun]
    rfl

/-! ### The step view -/

/-- R136: one byte read a step reaches the end that the loop of R125 reaches with the bytes that are left. -/
theorem steps_vdecStep (sz : Size) (left : Nat) (s : State) (h : s.idx.toNat + left = s.cmd.len.toNat) :
    (∀ u, State.vdecLoop sz left s = .next u →
      InFlight.steps (State.vdecStep sz) (left + 1) (.running s) = .responded u.vdecFinish) ∧
    ∀ r, State.vdecLoop sz left s = .fault r →
      InFlight.steps (State.vdecStep sz) (left + 1) (.running s) = .faulted r := by
  induction left generalizing s with
  | zero =>
    have hend : s.idx = s.cmd.len := BitVec.eq_of_toNat_eq h
    simp [InFlight.steps, State.vdecStep, State.vdecLoop, hend]
  | succ left ih =>
    have hmore : s.idx ≠ s.cmd.len := fun heq => by rw [heq] at h; omega
    have hidx : (s.vdecRead sz).idx.toNat = s.idx.toNat + 1 := by
      have hlen := s.cmd.len.isLt
      rw [State.vdecRead_idx, BitVec.toNat_add]
      exact Nat.mod_eq_of_lt (by simp; omega)
    rw [InFlight.steps, State.vdecStep, if_neg hmore, State.vdecLoop]
    split_ifs with hacc hcont
    · exact ih (s.vdecRead sz) (by rw [hidx, State.vdecRead_cmd]; omega)
    · simp [InFlight.steps]
    · simp [InFlight.steps]

/-! ### The statements of the decode -/

/-- Settles O19: `exists_decodesBytes`, and the uniqueness of the count. -/
theorem decodeCountExists : Obligations.DecodeCountExists := fun s =>
  let ⟨k, hk⟩ := exists_decodesBytes s
  ⟨k, hk, fun _ hk' => decodesBytes_unique hk' hk⟩

/-- Settles O18: the law of R126 at each of the four sizes. -/
theorem decodeReturnsTheGroups : Obligations.DecodeReturnsTheGroups :=
  ⟨⟨rfl, fun _ _ => exec_vdec_next .w8⟩, ⟨rfl, fun _ _ => exec_vdec_next .w16⟩,
    ⟨rfl, fun _ _ => exec_vdec_next .w32⟩, ⟨rfl, fun _ _ => exec_vdec_next .w64⟩⟩

/-- The four `vdec` commands are those of the four sizes. -/
theorem exists_size_of_mem_vdec {i : Instr} (h : i ∈ [Instr.vdec8, .vdec16, .vdec32, .vdec64]) :
    ∃ sz, i = (Shape.vdec sz).instr := by
  simp only [List.mem_cons, List.not_mem_nil, or_false] at h
  rcases h with rfl | rfl | rfl | rfl
  exacts [⟨.w8, rfl⟩, ⟨.w16, rfl⟩, ⟨.w32, rfl⟩, ⟨.w64, rfl⟩]

/-- Settles O20: the byte is one that the decode reads, because every earlier one lets it go on. -/
theorem decodeFaultsAtTheFirstOffendingRead : Obligations.DecodeFaultsAtTheFirstOffendingRead := by
  intro i hi s j hj hcont hacc hbad
  obtain ⟨sz, rfl⟩ := exists_size_of_mem_vdec hi
  obtain ⟨k, hk⟩ := exists_decodesBytes s
  exact exec_vdec_fault sz hk (lt_of_decodesBytes hk hj hcont) hacc hbad

/-- Settles O21: the count of no bytes is 0, which needs no address, and their sum is 0. -/
theorem decodeOfNoBytes : Obligations.DecodeOfNoBytes := by
  intro i hi s hlen
  obtain ⟨sz, rfl⟩ := exists_size_of_mem_vdec hi
  have hk : s.decodesBytes 0 := ⟨Nat.zero_le _, fun _ hj => absurd hj (Nat.not_lt_zero _), fun h => by simp [hlen] at h⟩
  rw [exec_vdec_next sz hk fun _ hj => absurd hj (Nat.not_lt_zero _)]
  have hvalue : s.decodedValue sz 0 = 0 := by simp [State.decodedValue]
  rw [hvalue]
  rfl

/-- Settles O23: the loop with `cmd.len` bytes left, by its three results. -/
theorem decodeStepView : Obligations.DecodeStepView := by
  intro sz s
  obtain ⟨hnext, hfault⟩ := steps_vdecStep sz s.count s.vdecStart (Nat.zero_add _)
  rw [exec_vdec, State.vdec]
  cases hrun : State.vdecLoop sz s.count s.vdecStart with
  | next u => exact hnext u hrun
  | fault r => exact hfault r hrun
  | refused r => exact absurd hrun State.vdecLoop_not_refused

end Sys2Proof.DecodeCommand
end

section
/-! SUPPORT. The values of `rev` and `ext` written out byte by byte, and one law each for the extracts and the appends
of every size and tag: the states they leave and the fault of R146. The statements about `rev`, `ext` and `app` are
settled from these. -/

namespace Sys2Proof.FixedWidthCommands

open Sys2Proof Sys2Proof.Machine Sys2Proof.ByteReversal Sys2Proof.FixedWidth

/-! ### Values written out -/

theorem valLE_singleton (b : Byte) : valLE [b] = b.setWidth 64 := by simp [valLE]

/-- 00_scope.md section 5.2: one more byte in front is the new least significant one. -/
theorem valLE_cons_of_eq_setWidth {w : Nat} {x : BitVec w} {bs : List Byte} (b : Byte)
    (h : valLE bs = x.setWidth 64) : valLE (b :: bs) = (x ++ b).setWidth 64 := by
  rw [valLE, h]
  refine BitVec.eq_of_getLsbD_eq fun i hi => ?_
  by_cases h8 : i < 8
  · simp [BitVec.getLsbD_append, hi, h8]
  · have hb : b.getLsbD i = false := BitVec.getLsbD_of_ge b i (not_lt.mp h8)
    simp [BitVec.getLsbD_append, hi, h8, hb]

theorem valLE_two (b0 b1 : Byte) : valLE [b0, b1] = (b1 ++ b0).setWidth 64 :=
  valLE_cons_of_eq_setWidth b0 (valLE_singleton b1)

theorem valLE_four (b0 b1 b2 b3 : Byte) : valLE [b0, b1, b2, b3] = (b3 ++ b2 ++ b1 ++ b0).setWidth 64 :=
  valLE_cons_of_eq_setWidth b0 (valLE_cons_of_eq_setWidth b1 (valLE_two b2 b3))

theorem valLE_eight (b0 b1 b2 b3 b4 b5 b6 b7 : Byte) :
    valLE [b0, b1, b2, b3, b4, b5, b6, b7] = b7 ++ b6 ++ b5 ++ b4 ++ b3 ++ b2 ++ b1 ++ b0 :=
  (valLE_cons_of_eq_setWidth b0 (valLE_cons_of_eq_setWidth b1 (valLE_cons_of_eq_setWidth b2
    (valLE_cons_of_eq_setWidth b3 (valLE_four b4 b5 b6 b7))))).trans (BitVec.setWidth_eq _)

theorem truncW_truncW (sz : Size) (v : Word64) : truncW sz (truncW sz v) = truncW sz v := by
  refine byteOf_ext fun k _ => ?_
  simp only [byteOf_truncW]
  split_ifs <;> rfl

theorem truncW_source (s : State) (sz : Size) : truncW sz (s.source sz) = s.source sz := truncW_truncW sz s.cmd.val

/-- The n bytes of a value do not see what stands above them (R55). -/
theorem bytesBE_truncW (sz : Size) (v : Word64) : bytesBE (truncW sz v) (sizeBytes sz) = bytesBE v (sizeBytes sz) := by
  refine List.map_congr_left fun k hk => ?_
  have hlt : k < sizeBytes sz := List.mem_range.mp hk
  rw [byteOf_truncW, if_pos (by omega)]

/-! ### Byte reversal -/

/-- R78: a `rev` with the value of R70 written as a sequence of bytes. -/
theorem exec_rev_next (sz : Size) (s : State) : exec (Shape.rev sz).instr s = .next
    { s with
        t := valLE (bytesBE s.cmd.val (sizeBytes sz))
        busy := false
        rsp := some { val := valLE (bytesBE s.cmd.val (sizeBytes sz)), cnt := 0, err := false } } := by
  rw [Exceptions.exec_rev, State.reverse, revBytes_eq_valLE_bytesBE, State.source, bytesBE_truncW]
  rfl

theorem reverseCommand (sz : Size) {cw : Byte} {reversed : Word64 → Word64} (hcw : decode cw = .ok (Shape.rev sz).instr)
    (hval : ∀ v, valLE (bytesBE v (sizeBytes sz)) = reversed v) :
    Claims.ReverseCommand (Shape.rev sz).instr cw reversed :=
  ⟨hcw, fun s => by rw [exec_rev_next, hval]⟩

/-- Settles O5: the bytes of each size, high byte first, read back low byte first. -/
theorem revReturnsTheReversedBytes : Obligations.RevReturnsTheReversedBytes :=
  ⟨reverseCommand .w8 rfl fun _ => valLE_singleton _, reverseCommand .w16 rfl fun _ => valLE_two _ _,
    reverseCommand .w32 rfl fun _ => valLE_four _ _ _ _, reverseCommand .w64 rfl fun _ => valLE_eight _ _ _ _ _ _ _ _⟩

/-! ### Extract -/

/-- `MemRead` at `cmd.ptr` is `b[0]`, `b[1]`, … of the rules (R31). -/
theorem readBytes_eq_map_bufferByte (s : State) (n : Nat) :
    s.mem.readBytes s.cmd.ptr n = (List.range n).map s.bufferByte := by
  refine List.ext_getElem (by simp) fun k hk _ => ?_
  simp [Memory.getElem_readBytes, State.bufferByte]

/-- R80, R82: an extract of any size and tag that may access its bytes. -/
theorem exec_ext_next (e : Endian) {sz : Size} {s : State} (h : s.mayAccessRange s.cmd.ptr (sizeBytes sz)) :
    exec (Shape.ext e sz).instr s = .next
      { s with
          t := nativeVal e ((List.range (sizeBytes sz)).map s.bufferByte)
          busy := false
          rsp := some
            { val := nativeVal e ((List.range (sizeBytes sz)).map s.bufferByte)
              cnt := BitVec.ofNat 8 (sizeBytes sz)
              err := false } } := by
  rw [exec_ext, State.extract, State.withBuffer_next _ h, State.extractEffect,
    swapIf_nativeVal _ _ (Memory.length_readBytes _ _ _), readBytes_eq_map_bufferByte]
  rfl

theorem extractCommand (e : Endian) (sz : Size) {cw : Byte} {value : (Nat → Byte) → Word64}
    (hcw : decode cw = .ok (Shape.ext e sz).instr)
    (hval : ∀ b, nativeVal e ((List.range (sizeBytes sz)).map b) = value b) :
    Claims.ExtractCommand (Shape.ext e sz).instr cw (sizeBytes sz) value := by
  refine ⟨hcw, fun s => ⟨fun h => ?_, fun j hj hr hb => ?_⟩⟩
  · rw [exec_ext_next e h, hval]
  · exact (exec_ext e sz s).trans (State.withBuffer_fault _ hj hr hb)

/-- Settles O8: the bytes read, low byte first. -/
theorem extractLittleEndian : Obligations.ExtractLittleEndian :=
  ⟨extractCommand .le .w8 rfl fun _ => valLE_singleton _, extractCommand .le .w16 rfl fun _ => valLE_two _ _,
    extractCommand .le .w32 rfl fun _ => valLE_four _ _ _ _,
    extractCommand .le .w64 rfl fun _ => valLE_eight _ _ _ _ _ _ _ _⟩

/-- Settles O9: high byte first is low byte first of the sequence read backwards. -/
theorem extractBigEndian : Obligations.ExtractBigEndian := by
  have backwards (bs : List Byte) : nativeVal .be bs = valLE bs.reverse := by
    rw [← valBE_reverse, List.reverse_reverse, nativeVal]
  exact ⟨extractCommand .be .w8 rfl fun _ => (backwards _).trans (valLE_singleton _),
    extractCommand .be .w16 rfl fun _ => (backwards _).trans (valLE_two _ _),
    extractCommand .be .w32 rfl fun _ => (backwards _).trans (valLE_four _ _ _ _),
    extractCommand .be .w64 rfl fun _ => (backwards _).trans (valLE_eight _ _ _ _ _ _ _ _)⟩

/-! ### Append -/

theorem truncW_swapIf (native e : Endian) (sz : Size) {v : Word64} (h : truncW sz v = v) :
    truncW sz (swapIf native e sz v) = swapIf native e sz v := by
  rw [swapIf]
  split_ifs
  · exact truncW_revBytes native sz v
  · exact h

/-- A byte that `MemWrite` has written reads as it was given (R32). -/
theorem read_writeBytes_add (m : Memory) (a : Nat) {bs : List Byte} {k : Nat} (hk : k < bs.length) :
    (m.writeBytes a bs).read (a + k) = bs.getD k 0 := by
  rw [Memory.read_writeBytes, if_pos (by omega), Nat.add_sub_cancel_left]

theorem read_writeBytes_outside (m : Memory) {a x : Nat} {bs : List Byte} (h : x < a ∨ a + bs.length ≤ x) :
    (m.writeBytes a bs).read x = m.read x := by
  rw [Memory.read_writeBytes, if_neg (by omega)]

theorem appendCommand (e : Endian) (sz : Size) {cw : Byte} {byte : Word64 → Nat → Byte}
    (hcw : decode cw = .ok (Shape.app e sz).instr)
    (hbyte : ∀ v k, k < sizeBytes sz → (nativeBytes e (truncW sz v) (sizeBytes sz)).getD k 0 = byte v k) :
    Claims.AppendCommand (Shape.app e sz).instr cw sz (sizeBytes sz) byte := by
  refine ⟨hcw, fun s => ⟨fun h => ?_, fun j hj hr hb => ?_⟩⟩
  · have hlen : (s.appendedBytes e sz).length = sizeBytes sz := length_nativeBytes ..
    have hmem : (State.appendEffect e sz s).mem.readBytes s.cmd.ptr (sizeBytes sz) = s.appendedBytes e sz := by
      rw [State.appendEffect_mem, ← hlen, readBytes_writeBytes]
    refine ⟨_, (exec_app e sz s).trans (State.withBuffer_next _ h), fun k hk => ?_, fun a ha => ?_, hmem.symm,
      truncW_swapIf _ _ _ (truncW_source s sz), rfl, rfl, rfl, rfl, rfl, rfl, rfl, rfl, rfl, rfl, rfl, rfl, rfl⟩
    · rw [State.appendEffect_mem, read_writeBytes_add _ _ (hlen.symm ▸ hk), appendedBytes_eq]
      exact hbyte s.cmd.val k hk
    · rw [State.appendEffect_mem, read_writeBytes_outside _ (hlen.symm ▸ ha)]
  · exact (exec_app e sz s).trans (State.withBuffer_fault _ hj hr hb)

/-- The bytes an append writes, by the byte of the value that each is (R81). -/
theorem getD_nativeBytes_le_truncW {sz : Size} (v : Word64) {k : Nat} (hk : k < sizeBytes sz) :
    (nativeBytes .le (truncW sz v) (sizeBytes sz)).getD k 0 = byteOf v k := by
  rw [nativeBytes, getD_bytesLE _ hk, byteOf_truncW, if_pos hk]

theorem getD_nativeBytes_be_truncW {sz : Size} (v : Word64) {k : Nat} (hk : k < sizeBytes sz) :
    (nativeBytes .be (truncW sz v) (sizeBytes sz)).getD k 0 = byteOf v (sizeBytes sz - 1 - k) := by
  rw [nativeBytes, bytesBE_truncW, getD_bytesBE _ hk]

/-- Settles O10: byte `k` of the value at `cmd.ptr + k`; at one byte `k` is 0. -/
theorem appendLittleEndian : Obligations.AppendLittleEndian := by
  refine ⟨appendCommand .le .w8 rfl fun v k hk => ?_,
    appendCommand .le .w16 rfl fun v k hk => getD_nativeBytes_le_truncW v hk,
    appendCommand .le .w32 rfl fun v k hk => getD_nativeBytes_le_truncW v hk,
    appendCommand .le .w64 rfl fun v k hk => getD_nativeBytes_le_truncW v hk⟩
  obtain rfl : k = 0 := Nat.lt_one_iff.mp hk
  exact getD_nativeBytes_le_truncW v hk

/-- Settles O11: byte `n-1-k` of the value at `cmd.ptr + k`; at one byte `k` is 0. -/
theorem appendBigEndian : Obligations.AppendBigEndian := by
  refine ⟨appendCommand .be .w8 rfl fun v k hk => ?_,
    appendCommand .be .w16 rfl fun v k hk => getD_nativeBytes_be_truncW v hk,
    appendCommand .be .w32 rfl fun v k hk => getD_nativeBytes_be_truncW v hk,
    appendCommand .be .w64 rfl fun v k hk => getD_nativeBytes_be_truncW v hk⟩
  obtain rfl : k = 0 := Nat.lt_one_iff.mp hk
  exact getD_nativeBytes_be_truncW v hk

/-! ### Append, then extract -/

/-- 00_scope.md section 5.2: reading a byte sequence of a value in the order it was written gives the value, and in the
other order its reversal. -/
theorem nativeVal_nativeBytes (e e' : Endian) {sz : Size} {v : Word64} (hv : truncW sz v = v) :
    nativeVal e' (nativeBytes e v (sizeBytes sz)) = if e' = e then v else revBytes .le v (sizeBytes sz) := by
  split_ifs with h
  · subst h
    cases e' with
    | le => exact (valLE_bytesLE sz v).trans hv
    | be =>
      show valBE (bytesBE v (sizeBytes sz)) = v
      rw [bytesBE_eq_reverse_bytesLE, valBE_reverse, valLE_bytesLE, hv]
  · calc nativeVal e' (nativeBytes e v (sizeBytes sz))
      _ = revBytes e v (sizeBytes sz) := (nativeVal_reverse h _).symm
      _ = revBytes .le v (sizeBytes sz) := by rw [revBytes_eq_valLE_bytesBE, revBytes_eq_valLE_bytesBE]

theorem swapIf_w8 (native e : Endian) (v : Word64) : swapIf native e .w8 v = v := by simp [swapIf, swaps, sizeBytes]

/-- R83: at one byte the tag plays no part. -/
theorem extractEffect_w8 (e e' : Endian) : State.extractEffect e .w8 = State.extractEffect e' .w8 := by
  funext s
  simp only [State.extractEffect, swapIf_w8]

theorem appendEffect_w8 (e e' : Endian) : State.appendEffect e .w8 = State.appendEffect e' .w8 := by
  funext s
  simp only [State.appendEffect, State.appendedBytes, swapIf_w8]

/-- Settles O13: what stands after the append is `bytes_E` of the value, and an extract is `val_E` of what stands. -/
theorem appendThenExtract : Obligations.AppendThenExtract := by
  refine ⟨?roundTrip, ?deterministic, fun s => ?oneByte, by decide, by decide⟩
  case roundTrip =>
    intro e e' sz s u w hexec hptr hacc hmem
    obtain ⟨-, rfl⟩ := State.withBuffer_eq_next ((exec_app e sz s).symm.trans hexec)
    have hbytes : w.mem.readBytes w.cmd.ptr (sizeBytes sz) = nativeBytes e (s.source sz) (sizeBytes sz) := by
      rw [hptr, Memory.readBytes_congr hmem, State.appendEffect_mem, appendedBytes_eq]
      simpa only [length_nativeBytes] using
        readBytes_writeBytes s.mem s.cmd.ptr (nativeBytes e (s.source sz) (sizeBytes sz))
    obtain ⟨x, r, hx, hr, hval⟩ := exec_ext_val e' (hptr.symm ▸ hacc : w.mayAccessRange w.cmd.ptr (sizeBytes sz))
    exact ⟨x, r, hx, hr, by rw [hval, hbytes, nativeVal_nativeBytes e e' (truncW_source s sz)]⟩
  case deterministic =>
    intro e sz s w s' w' hbytes hs hw
    obtain ⟨hsacc, -⟩ := State.withBuffer_eq_next ((exec_ext e sz s).symm.trans hs)
    obtain ⟨hwacc, -⟩ := State.withBuffer_eq_next ((exec_ext e sz w).symm.trans hw)
    cases (exec_ext_next e hsacc).symm.trans hs
    cases (exec_ext_next e hwacc).symm.trans hw
    have hmap : (List.range (sizeBytes sz)).map s.bufferByte = (List.range (sizeBytes sz)).map w.bufferByte :=
      List.map_congr_left fun j hj => hbytes j (List.mem_range.mp hj)
    simp only [hmap]
  case oneByte =>
    exact ⟨congrArg (s.withBuffer 1) (extractEffect_w8 .le .be), congrArg (s.withBuffer 1) (appendEffect_w8 .le .be)⟩

end Sys2Proof.FixedWidthCommands
end

section
/-! SUPPORT. The encode command as one state (R110 to R112), and its step view as the first bytes of it (R120). The
statements about `venc` are settled from these. -/

namespace Sys2Proof.EncodeCommand

open Sys2Proof Sys2Proof.Machine Sys2Proof.Varint Sys2Proof.EncodedLength Sys2Proof.FixedWidthCommands

/-! ### The command as one step -/

/-- R110, R112: a `venc` that may access its worst case leaves `vencBytes` at `cmd.ptr`. -/
theorem exec_venc_next {sz : Size} {s : State} (h : s.mayAccessRange s.cmd.ptr (maxlen sz)) :
    exec (Shape.venc sz).instr s = .next
      { s with
          mem := s.mem.writeBytes s.cmd.ptr (vencBytes (maxlen sz) (s.source sz))
          rem := s.source sz >>> (7 * (encodedLength (s.source sz) - 1))
          idx := BitVec.ofNat 8 (encodedLength (s.source sz))
          busy := false
          rsp := some { val := 0, cnt := BitVec.ofNat 8 (encodedLength (s.source sz)), err := false } } := by
  rw [exec_venc, State.venc, State.withBuffer_next _ h, State.venc_effect,
    length_vencBytes (toNat_source_lt_fuel s sz)]
  rfl

/-- R112: the bytes of a `venc` are as many as the length formula says. -/
theorem length_vencBytes_source (s : State) (sz : Size) :
    (vencBytes (maxlen sz) (s.source sz)).length = encodedLength (s.source sz) :=
  length_vencBytes (toNat_source_lt_fuel s sz)

theorem eq_zero_of_setWidth_8 {g : BitVec 7} (h : g.setWidth 8 = 0) : g = 0 := by bv_omega

theorem encodeCommand (sz : Size) {cw : Byte} (hcw : decode cw = .ok (Shape.venc sz).instr) :
    Claims.EncodeCommand (Shape.venc sz).instr cw sz (maxlen sz) := by
  refine ⟨hcw, fun s => ⟨fun h => ?completes, fun j hj hr hb => ?faults⟩⟩
  case faults => exact (exec_venc sz s).trans (State.withBuffer_fault _ hj hr hb)
  case completes =>
    have hlen := length_vencBytes_source s sz
    have hpos := one_le_encodedLength (s.source sz)
    have hbyte : ∀ k < encodedLength (s.source sz),
        (s.mem.writeBytes s.cmd.ptr (vencBytes (maxlen sz) (s.source sz))).read (s.cmd.ptr + k) =
          if k + 1 < encodedLength (s.source sz) then 0x80#8 ||| (groupOf (s.source sz) k).setWidth 8
          else (groupOf (s.source sz) k).setWidth 8 := fun k hk => by
      rw [← hlen] at hk ⊢
      rw [read_writeBytes_add _ _ hk, getD_vencBytes (toNat_source_lt_fuel s sz) k hk]
    have hlast := hbyte (encodedLength (s.source sz) - 1) (by omega)
    rw [if_neg (by omega)] at hlast
    refine ⟨_, exec_venc_next h, hpos, encodedLength_le_maxlen (toNat_source_lt s sz), fun k hk => ?_, hlast,
      fun hzero => ?_, fun a ha => ?_, rfl, rfl, rfl, rfl, rfl, rfl, rfl, rfl, rfl, rfl, rfl, rfl, rfl, rfl⟩
    · exact (hbyte k (by omega)).trans (if_pos hk)
    · exact eq_zero_of_groupOf_last (eq_zero_of_setWidth_8 (hlast.symm.trans hzero))
    · exact read_writeBytes_outside _ (by omega)

/-- Settles O14: the law of `venc` at each of the four sizes. -/
theorem encodeWritesTheGroups : Obligations.EncodeWritesTheGroups :=
  ⟨encodeCommand .w8 rfl, encodeCommand .w16 rfl, encodeCommand .w32 rfl, encodeCommand .w64 rfl⟩

/-! ### The step view -/

/-- R120: one byte write a step ends as the loop of R110 does. -/
theorem steps_vencStep (fuel : Nat) (s : State) (hfuel : 0 < fuel) (h : s.rem.toNat < 2 ^ (7 * fuel)) :
    InFlight.steps State.vencStep fuel (.running s) = .responded (State.vencLoop fuel s).vencFinish := by
  induction fuel generalizing s with
  | zero => exact absurd hfuel (lt_irrefl 0)
  | succ fuel ih =>
    rw [InFlight.steps, State.vencStep, State.vencLoop]
    split_ifs with hmore
    · have hrem := shiftRight_7_lt h
      refine ih s.vencEmit (Nat.pos_of_ne_zero fun hzero => ?_) hrem
      rw [hzero] at h
      exact absurd ((moreRemains_iff s.rem).mp hmore) (not_le.mpr h)
    · simp [InFlight.steps]

/-- R120: where the step view still runs after `k` steps, the first `k` bytes of the command have been written. -/
theorem mem_of_steps_running {k fuel : Nat} {s u : State} (hrem : s.rem.toNat < 2 ^ (7 * (fuel + 1)))
    (hidx : s.idx.toNat + fuel < 255) (h : InFlight.steps State.vencStep k (.running s) = .running u) :
    u.mem = s.mem.writeBytes s.codecAddr ((vencBytes fuel s.rem).take k) := by
  induction k generalizing fuel s with
  | zero =>
    simp only [InFlight.steps, InFlight.running.injEq] at h
    rw [← h, List.take_zero, Memory.writeBytes]
  | succ k ih =>
    rw [InFlight.steps, State.vencStep] at h
    split_ifs at h with hmore
    · cases fuel with
      | zero => exact absurd ((moreRemains_iff s.rem).mp hmore) (not_le.mpr hrem)
      | succ fuel =>
        have hnext : s.vencEmit.idx.toNat = s.idx.toNat + 1 := by
          rw [State.vencEmit_idx, BitVec.toNat_add]
          exact Nat.mod_eq_of_lt (by simp; omega)
        have haddr : s.vencEmit.codecAddr = s.codecAddr + 1 := congrArg (s.cmd.ptr + ·) hnext
        rw [ih (shiftRight_7_lt hrem) (by omega) h, haddr, vencBytes, if_pos hmore, List.take_succ_cons,
          Memory.writeBytes]
        rfl
    · simp [InFlight.steps] at h

/-- Settles O15: the step view ends as the loop does, and a reset in it spoils what its completed steps have left. -/
theorem encodeStepView : Obligations.EncodeStepView := by
  constructor
  · intro sz s u hexec
    obtain ⟨-, rfl⟩ := State.withBuffer_eq_next ((exec_venc sz s).symm.trans hexec)
    have hbits : sizeBits sz ≤ 7 * maxlen sz := by cases sz <;> decide
    exact steps_vencStep _ _ (by cases sz <;> decide)
      ((toNat_source_lt s sz).trans_le (Nat.pow_le_pow_right (by decide) hbits))
  · intro sz s u w k hdec hrun habandon a
    have hu : u.mem = s.mem.writeBytes s.cmd.ptr ((vencBytes (maxlen sz) (s.source sz)).take k) :=
      mem_of_steps_running (toNat_source_lt_fuel s sz) (by cases sz <;> simp <;> decide) hrun
    rcases State.abandon_eq_next habandon with ⟨⟨c, hc⟩, -⟩ | ⟨i, hi, -, rfl⟩
    · exact absurd (hdec.symm.trans hc) (by simp)
    · obtain rfl : (Shape.venc sz).instr = i := Except.ok.inj (hdec.symm.trans hi)
      have hset : writeSetBytes (Shape.venc sz).instr = maxlen sz := by rw [writeSetBytes, Encoding.shape_instr]
      have hwrites : s.commandWrites (Shape.venc sz).instr = vencBytes (maxlen sz) (s.source sz) := by
        rw [State.commandWrites, Encoding.shape_instr]
      rw [State.resetUnit_mem, State.read_spoil, hset, hwrites, ← hu]
      rfl

end Sys2Proof.EncodeCommand
end

section
/-! SUPPORT. All 28 commands by one law: a command whose required bytes (R37) may be accessed completes, with a response
that is a function of its operands and of the bytes it reads, its bytes written and nothing else of the surroundings
changed; any other stops at the lowest offending address. The statements about all commands are settled from this law
and do not look at the families again. -/

namespace Sys2Proof.Commands

open Sys2Proof Sys2Proof.Machine Sys2Proof.FixedWidth Sys2Proof.FixedWidthCommands Sys2Proof.EncodedLength
  Sys2Proof.EncodeCommand Sys2Proof.DecodeCommand

/-! ### What a completed command leaves -/

/-- The response of a command that requires `k` bytes (R72 to R75, R82, R112, R126). -/
def responseTo (s : State) (i : Instr) (k : Nat) : Response :=
  match i.shape with
  | .rev sz => { val := valLE (bytesBE (s.source sz) (sizeBytes sz)), cnt := 0, err := false }
  | .ext e sz =>
    { val := nativeVal e ((List.range k).map s.bufferByte), cnt := BitVec.ofNat 8 (sizeBytes sz), err := false }
  | .app _ sz => { val := 0, cnt := BitVec.ofNat 8 (sizeBytes sz), err := false }
  | .venc sz => { val := 0, cnt := BitVec.ofNat 8 (encodedLength (s.source sz)), err := false }
  | .vdec sz => { val := s.decodedValue sz k, cnt := BitVec.ofNat 8 k, err := false }

/-- What a command that requires `k` bytes leaves when it completes. -/
structure Completed (i : Instr) (k : Nat) (s u : State) : Prop where
  busy : u.busy = false
  rsp : u.rsp = some (responseTo s i k)
  mem : u.mem = s.mem.writeBytes s.cmd.ptr (s.commandWrites i)
  surroundings : s.sameSurroundings u

theorem Completed.cfg_eq {i : Instr} {k : Nat} {s u : State} (h : Completed i k s u) : u.cfg = s.cfg := by
  obtain ⟨hcfg, -⟩ := h.surroundings
  exact hcfg

theorem Completed.cmd_eq {i : Instr} {k : Nat} {s u : State} (h : Completed i k s u) : u.cmd = s.cmd := by
  obtain ⟨-, hcmd, -⟩ := h.surroundings
  exact hcmd

theorem err_responseTo (s : State) (i : Instr) (k : Nat) : (responseTo s i k).err = false := by
  rw [responseTo]
  split <;> rfl

/-- R56: every command is the command of a shape. -/
theorem exists_shape (i : Instr) : ∃ sh : Shape, i = sh.instr := ⟨i.shape, (Exceptions.instr_shape i).symm⟩

/-! ### The bytes a command requires and the bytes it writes -/

theorem exists_requiresBytes (s : State) (i : Instr) : ∃ k, s.requiresBytes i k := by
  obtain ⟨sh, rfl⟩ := exists_shape i
  simp only [State.requiresBytes, Encoding.shape_instr]
  cases sh with
  | vdec sz => exact exists_decodesBytes s
  | rev sz | ext e sz | app e sz | venc sz => exact ⟨_, rfl⟩

/-- R37, R45: where the data does not decide, the bytes required are the bytes that may be touched. -/
theorem requiresBytes_mayTouchBytes (s : State) {i : Instr} (h : ∀ sz, i.shape ≠ .vdec sz) :
    s.requiresBytes i (mayTouchBytes i s.cmd.len) := by
  rw [State.requiresBytes, mayTouchBytes]
  cases hsh : i.shape with
  | vdec sz => exact absurd hsh (h sz)
  | rev sz | ext e sz | app e sz | venc sz => rfl

/-- R45: the worst case bounds what any data requires. -/
theorem le_mayTouchBytes {s : State} {i : Instr} {k : Nat} (hk : s.requiresBytes i k) :
    k ≤ mayTouchBytes i s.cmd.len := by
  rw [State.requiresBytes] at hk
  rw [mayTouchBytes]
  cases hsh : i.shape with
  | vdec sz =>
    rw [hsh] at hk
    exact hk.1
  | rev sz | ext e sz | app e sz | venc sz =>
    rw [hsh] at hk
    exact le_of_eq hk

theorem maxlen_pos (sz : Size) : 0 < maxlen sz := by cases sz <;> decide

/-- R38: an address above `2 ^ AW - 1` may not be accessed. -/
theorem lt_of_mayAccess {s : State} {a : Nat} (h : s.mayAccess a = true) : a < 2 ^ s.cfg.aw := by
  simp only [State.mayAccess, Bool.and_eq_true, decide_eq_true_eq] at h
  exact h.1

/-- R37: an `ext`, `app` or `venc` has at least one byte. -/
theorem mayTouchBytes_pos {i : Instr} (haccess : loadsFrom i = true ∨ storesTo i = true)
    (h : ∀ sz, i.shape ≠ .vdec sz) (len : Byte) : 0 < mayTouchBytes i len := by
  rw [loadsFrom, storesTo] at haccess
  rw [mayTouchBytes]
  cases hsh : i.shape with
  | rev sz => simp [hsh] at haccess
  | ext e sz | app e sz => exact sizeBytes_pos sz
  | venc sz => exact maxlen_pos sz
  | vdec sz => exact absurd hsh (h sz)

/-- R39: what a command does not store to, it does not write. -/
theorem commandWrites_of_not_storesTo (s : State) {i : Instr} (h : storesTo i = false) : s.commandWrites i = [] := by
  rw [storesTo] at h
  rw [State.commandWrites]
  cases hsh : i.shape with
  | app e sz | venc sz => simp [hsh] at h
  | rev sz | ext e sz | vdec sz => rfl

/-- R39: no command both loads and stores. -/
theorem not_storesTo_of_loadsFrom {i : Instr} (h : loadsFrom i = true) : storesTo i = false := by
  rw [loadsFrom] at h
  rw [storesTo]
  cases hsh : i.shape with
  | ext e sz | vdec sz => rfl
  | rev sz | app e sz | venc sz => simp [hsh] at h

/-- R39: a storing command writes at least one byte, as many as its response counts, and no more than R37 gives it. -/
theorem length_commandWrites {s : State} {i : Instr} {k : Nat} (hk : s.requiresBytes i k) (h : storesTo i = true) :
    1 ≤ (s.commandWrites i).length ∧ (s.commandWrites i).length ≤ k ∧
      (responseTo s i k).cnt.toNat = (s.commandWrites i).length := by
  have small {n : Nat} (hn : n ≤ 10) : (BitVec.ofNat 8 n).toNat = n := Nat.mod_eq_of_lt (by omega)
  rw [storesTo] at h
  rw [State.requiresBytes] at hk
  rw [State.commandWrites, responseTo]
  cases hsh : i.shape with
  | app e sz =>
    have hle := sizeBytes_le sz
    have hlen : (s.appendedBytes e sz).length = sizeBytes sz := length_nativeBytes ..
    simp only [hsh] at hk
    simp only [hlen, hk]
    exact ⟨sizeBytes_pos sz, le_rfl, small (by omega)⟩
  | venc sz =>
    have hmax : maxlen sz ≤ 10 := by cases sz <;> decide
    have hle := encodedLength_le_maxlen (Varint.toNat_source_lt s sz)
    simp only [hsh] at hk
    simp only [length_vencBytes_source, hk]
    exact ⟨one_le_encodedLength _, hle, small (by omega)⟩
  | rev sz | ext e sz | vdec sz => simp [hsh] at h

theorem length_commandWrites_le {s : State} {i : Instr} {k : Nat} (hk : s.requiresBytes i k) :
    (s.commandWrites i).length ≤ k := by
  cases hst : storesTo i with
  | false => simp [commandWrites_of_not_storesTo s hst]
  | true =>
    obtain ⟨-, hle, -⟩ := length_commandWrites hk hst
    exact hle

/-- R45: every byte a command writes is one that it may store to. -/
theorem mayStore_of_lt_length {s : State} {i : Instr} {a : Nat} (hge : s.cmd.ptr ≤ a)
    (hlt : a < s.cmd.ptr + (s.commandWrites i).length) : s.mayStore i a := by
  obtain ⟨k, hk⟩ := exists_requiresBytes s i
  have hle := length_commandWrites_le hk
  have hmay := le_mayTouchBytes hk
  refine ⟨?_, hge, by omega⟩
  by_contra hst
  rw [commandWrites_of_not_storesTo s (Bool.eq_false_iff.mpr hst)] at hlt
  exact absurd hlt (not_lt.mpr hge)

/-! ### The law of a command -/

/-- R144: a command that may access the bytes it requires completes. -/
theorem exec_next {s : State} {i : Instr} {k : Nat} (hk : s.requiresBytes i k) (hacc : s.mayAccessRange s.cmd.ptr k) :
    ∃ u, exec i s = .next u ∧ Completed i k s u := by
  obtain ⟨sh, rfl⟩ := exists_shape i
  simp only [State.requiresBytes, Encoding.shape_instr] at hk
  cases sh with
  | rev sz =>
    refine ⟨_, exec_rev_next sz s, rfl, ?_, ?_, rfl, rfl, rfl, rfl, rfl, rfl, rfl⟩
    · simp [responseTo, State.source, bytesBE_truncW]
    · simp [State.commandWrites, Memory.writeBytes]
  | ext e sz =>
    subst hk
    refine ⟨_, exec_ext_next e hacc, rfl, ?_, ?_, rfl, rfl, rfl, rfl, rfl, rfl, rfl⟩
    · simp [responseTo]
    · simp [State.commandWrites, Memory.writeBytes]
  | app e sz =>
    subst hk
    refine ⟨_, (exec_app e sz s).trans (State.withBuffer_next _ hacc), rfl, ?_, ?_, rfl, rfl, rfl, rfl, rfl, rfl, rfl⟩
    · simp [responseTo]
    · simp [State.commandWrites]
  | venc sz =>
    subst hk
    refine ⟨_, exec_venc_next hacc, rfl, ?_, ?_, rfl, rfl, rfl, rfl, rfl, rfl, rfl⟩
    · simp [responseTo]
    · simp [State.commandWrites]
  | vdec sz =>
    refine ⟨_, Varint.exec_vdec_next sz hk hacc, rfl, ?_, ?_, rfl, rfl, rfl, rfl, rfl, rfl, rfl⟩
    · simp [responseTo]
    · simp [State.commandWrites, Memory.writeBytes]

/-- R146: a command stops at the first of its required bytes that may not be accessed. -/
theorem exec_fault {s : State} {i : Instr} {k j : Nat} (hk : s.requiresBytes i k) (hj : j < k)
    (hacc : s.mayAccessRange s.cmd.ptr j) (hbad : s.mayAccess (s.cmd.ptr + j) = false) :
    exec i s = .fault (.bufferPrecondition s.cmd (s.cmd.ptr + j)) := by
  obtain ⟨sh, rfl⟩ := exists_shape i
  simp only [State.requiresBytes, Encoding.shape_instr] at hk
  cases sh with
  | rev sz => exact absurd hj (by omega)
  | ext e sz => exact (exec_ext e sz s).trans (State.withBuffer_fault _ (hk ▸ hj) hacc hbad)
  | app e sz => exact (exec_app e sz s).trans (State.withBuffer_fault _ (hk ▸ hj) hacc hbad)
  | venc sz => exact (Varint.exec_venc sz s).trans (State.withBuffer_fault _ (hk ▸ hj) hacc hbad)
  | vdec sz => exact exec_vdec_fault sz hk hj hacc hbad

/-- Everything a command can do. -/
theorem exec_cases {s : State} {i : Instr} {k : Nat} (hk : s.requiresBytes i k) :
    (s.mayAccessRange s.cmd.ptr k ∧ ∃ u, exec i s = .next u ∧ Completed i k s u) ∨
    ∃ j, j < k ∧ s.mayAccessRange s.cmd.ptr j ∧ s.mayAccess (s.cmd.ptr + j) = false ∧
      exec i s = .fault (.bufferPrecondition s.cmd (s.cmd.ptr + j)) := by
  cases h : s.firstOffending k s.cmd.ptr with
  | none =>
    have hacc := State.firstOffending_none.mp h
    exact Or.inl ⟨hacc, exec_next hk hacc⟩
  | some a =>
    obtain ⟨j, hj, -, hacc, hbad⟩ := State.firstOffending_some.mp h
    exact Or.inr ⟨j, hj, hacc, hbad, exec_fault hk hj hacc hbad⟩

/-- A command that answers a next state may access the bytes it requires, and has completed. -/
theorem completed_of_exec {s u : State} {i : Instr} (h : exec i s = .next u) :
    ∃ k, s.requiresBytes i k ∧ s.mayAccessRange s.cmd.ptr k ∧ Completed i k s u := by
  obtain ⟨k, hk⟩ := exists_requiresBytes s i
  rcases exec_cases hk with ⟨hacc, v, hv, hdone⟩ | ⟨j, -, -, -, hfault⟩
  · cases h.symm.trans hv
    exact ⟨k, hk, hacc, hdone⟩
  · cases h.symm.trans hfault

/-! ### The buffer after a command -/

theorem Completed.read_written {i : Instr} {k j : Nat} {s u : State} (h : Completed i k s u)
    (hj : j < (s.commandWrites i).length) : u.mem.read (s.cmd.ptr + j) = (s.commandWrites i).getD j 0 := by
  rw [h.mem, read_writeBytes_add _ _ hj]

theorem Completed.read_outside {i : Instr} {k a : Nat} {s u : State} (h : Completed i k s u)
    (ha : a < s.cmd.ptr ∨ s.cmd.ptr + (s.commandWrites i).length ≤ a) : u.mem.read a = s.mem.read a := by
  rw [h.mem, read_writeBytes_outside _ ha]

/-- R39, R45: an address the command may not store to reads as before. -/
theorem Completed.read_of_not_mayStore {i : Instr} {k a : Nat} {s u : State} (h : Completed i k s u)
    (ha : ¬s.mayStore i a) : u.mem.read a = s.mem.read a := by
  refine h.read_outside ?_
  by_contra hin
  exact ha (mayStore_of_lt_length (by omega) (by omega))

theorem Completed.mem_of_not_storesTo {i : Instr} {k : Nat} {s u : State} (h : Completed i k s u)
    (hst : storesTo i = false) : u.mem = s.mem := by
  rw [h.mem, commandWrites_of_not_storesTo s hst, Memory.writeBytes]

/-- Settles O28: the bytes of R39 are those the response counts. -/
theorem onlyAppendAndEncodeWriteTheBuffer : Obligations.OnlyAppendAndEncodeWriteTheBuffer := by
  intro i s u hexec
  obtain ⟨k, hk, -, hdone⟩ := completed_of_exec hexec
  refine ⟨hdone.mem_of_not_storesTo, fun hst => ⟨_, hdone.rsp, ?_⟩⟩
  obtain ⟨hpos, hle, hcnt⟩ := length_commandWrites hk hst
  rw [hcnt]
  exact ⟨hpos, hle.trans (le_mayTouchBytes hk), fun a ha => hdone.read_outside ha⟩

/-- Settles O25: of the required addresses, the first offending one is no later than the first that does not exist. -/
theorem noAddressWraps : Obligations.NoAddressWraps := by
  intro i s haccess hshape htop
  rcases exec_cases (requiresBytes_mayTouchBytes s hshape) with ⟨hacc, -⟩ | ⟨j, hj, hacc, hbad, hfault⟩
  · have hpos := mayTouchBytes_pos haccess hshape s.cmd.len
    have hlast := lt_of_mayAccess (hacc (mayTouchBytes i s.cmd.len - 1) (by omega))
    omega
  · refine ⟨_, Nat.le_add_right _ _, ?_, hbad, hfault⟩
    by_contra hgt
    have hlast := lt_of_mayAccess (hacc (j - 1) (by omega))
    omega

/-! ### What a command depends on -/

theorem sameOperands_of_eq (i : Instr) {s u : State} (hcfg : u.cfg = s.cfg) (hcmd : u.cmd = s.cmd) :
    sameOperands i s u := by
  have hsource (sz : Size) : s.source sz = u.source sz := by rw [State.source, State.source, hcmd]
  refine ⟨by rw [hcfg], by rw [hcfg], ?_⟩
  rw [hcmd]
  cases i.shape with
  | rev sz => exact hsource sz
  | ext e sz => rfl
  | app e sz | venc sz => exact ⟨rfl, hsource sz⟩
  | vdec sz => exact ⟨rfl, rfl⟩

section

variable {i : Instr} {s u : State} {k : Nat} (hop : sameOperands i s u)

include hop

/-- R37: agreeing states may access the same addresses. -/
theorem mayAccess_congr (a : Nat) : s.mayAccess a = u.mayAccess a := by
  obtain ⟨haw, hregion, -⟩ := hop
  rw [State.mayAccess, State.mayAccess, haw, hregion]

/-- R51: a command that requires any byte uses `cmd.ptr`. -/
theorem ptr_congr (hk : s.requiresBytes i k) (hpos : 0 < k) : s.cmd.ptr = u.cmd.ptr := by
  obtain ⟨-, -, hfields⟩ := hop
  rw [State.requiresBytes] at hk
  cases hsh : i.shape with
  | rev sz => simp only [hsh] at hk; omega
  | ext e sz => simpa only [hsh] using hfields
  | app e sz | venc sz | vdec sz => simp only [hsh] at hfields; exact hfields.1

/-- R21, R82, R111: the bytes a command writes are a function of the operands it uses. -/
theorem commandWrites_congr : s.commandWrites i = u.commandWrites i := by
  obtain ⟨-, -, hfields⟩ := hop
  rw [State.commandWrites, State.commandWrites]
  cases hsh : i.shape with
  | app e sz =>
    simp only [hsh] at hfields
    simp only [appendedBytes_eq, hfields]
  | venc sz =>
    simp only [hsh] at hfields
    simp only [hfields]
  | rev sz | ext e sz | vdec sz => rfl

variable (hread : loadsFrom i = true → ∀ j, j < k → s.bufferByte j = u.bufferByte j)

include hread

/-- R37: the bytes a command requires depend on its operands and on those bytes. -/
theorem requiresBytes_congr (hk : s.requiresBytes i k) : u.requiresBytes i k := by
  obtain ⟨-, -, hfields⟩ := hop
  rw [State.requiresBytes] at hk ⊢
  cases hsh : i.shape with
  | vdec sz =>
    simp only [hsh] at hk hfields
    have hbytes := hread (by simp [loadsFrom, hsh])
    obtain ⟨-, hlen⟩ := hfields
    obtain ⟨hle, hcont, hlast⟩ := hk
    refine ⟨hlen ▸ hle, fun j hj => hbytes j (by omega) ▸ hcont j hj, fun hlt => ?_⟩
    obtain ⟨hpos, hstop⟩ := hlast (hlen ▸ hlt)
    exact ⟨hpos, hbytes (k - 1) (by omega) ▸ hstop⟩
  | rev sz | ext e sz | app e sz | venc sz => simpa only [hsh] using hk

/-- R21: the response is a function of the operands the command uses and the bytes it reads. -/
theorem responseTo_congr : responseTo s i k = responseTo u i k := by
  obtain ⟨-, -, hfields⟩ := hop
  rw [responseTo, responseTo]
  cases hsh : i.shape with
  | rev sz => simp only [hsh] at hfields; simp only [hfields]
  | ext e sz =>
    have hbytes := hread (by simp [loadsFrom, hsh])
    have hmap : (List.range k).map s.bufferByte = (List.range k).map u.bufferByte :=
      List.map_congr_left fun j hj => hbytes j (List.mem_range.mp hj)
    simp only [hmap]
  | app e sz => rfl
  | venc sz => simp only [hsh] at hfields; simp only [hfields]
  | vdec sz =>
    have hbytes := hread (by simp [loadsFrom, hsh])
    have hsum : s.decodedValue sz k = u.decodedValue sz k := by
      rw [State.decodedValue, State.decodedValue,
        Finset.sum_congr rfl fun j hj => by rw [hbytes j (Finset.mem_range.mp hj)]]
    simp only [hsum]

/-- R21: a command that completes in one of two agreeing states completes in the other, alike. -/
theorem exec_next_congr (hk : s.requiresBytes i k) (hacc : s.mayAccessRange s.cmd.ptr k) :
    ∃ v, exec i u = .next v ∧ v.rsp = some (responseTo s i k) ∧
      v.mem = u.mem.writeBytes u.cmd.ptr (s.commandWrites i) ∧ v.cmd = u.cmd := by
  have hacc' : u.mayAccessRange u.cmd.ptr k := fun j hj => by
    rw [← mayAccess_congr hop, ← ptr_congr hop hk (Nat.zero_lt_of_lt hj)]
    exact hacc j hj
  obtain ⟨v, hv, hdone⟩ := exec_next (requiresBytes_congr hop hread hk) hacc'
  rw [responseTo_congr hop hread, commandWrites_congr hop]
  exact ⟨v, hv, hdone.rsp, hdone.mem, hdone.cmd_eq⟩

end

/-- Settles O27: the two runs access the same addresses, so they complete alike or stop alike. -/
theorem responseDependsOnOperandsAndBytesOnly : Obligations.ResponseDependsOnOperandsAndBytesOnly := by
  intro i s u hop hreads
  obtain ⟨k, hk⟩ := exists_requiresBytes s i
  have hread : loadsFrom i = true → ∀ j, j < k → s.bufferByte j = u.bufferByte j := fun hl => hreads hl k hk
  rcases exec_cases hk with ⟨hacc, s', hs', hdone⟩ | ⟨j, hj, hacc, hbad, hfault⟩
  · obtain ⟨u', hu', hrsp, hmem, hcmd⟩ := exec_next_congr hop hread hk hacc
    refine Or.inl ⟨s', u', _, hs', hu', hdone.rsp, hrsp, fun hst j hj => ?_⟩
    obtain ⟨-, -, hcnt⟩ := length_commandWrites hk hst
    rw [hcnt] at hj
    rw [State.bufferByte, State.bufferByte, hdone.cmd_eq, hcmd, hmem, hdone.read_written hj,
      read_writeBytes_add _ _ hj]
  · have hptr := ptr_congr hop hk (Nat.zero_lt_of_lt hj)
    refine Or.inr ⟨_, hfault, ?_⟩
    rw [hptr]
    refine exec_fault (requiresBytes_congr hop hread hk) hj (fun l hl => ?_) ?_
    · rw [← mayAccess_congr hop, ← hptr]
      exact hacc l hl
    · rw [← mayAccess_congr hop, ← hptr]
      exact hbad

/-- Settles O29: the second run has the operands of the first, and reads bytes only where the first wrote none. -/
theorem repeatingACommandChangesNothing : Obligations.RepeatingACommandChangesNothing := by
  intro i s u hexec
  obtain ⟨k, hk, hacc, hdone⟩ := completed_of_exec hexec
  have hread : loadsFrom i = true → ∀ j, j < k → s.bufferByte j = u.bufferByte j := fun hl j _ => by
    rw [State.bufferByte, State.bufferByte, hdone.cmd_eq, hdone.mem_of_not_storesTo (not_storesTo_of_loadsFrom hl)]
  obtain ⟨w, hw, hrsp, hmem, -⟩ :=
    exec_next_congr (sameOperands_of_eq i hdone.cfg_eq hdone.cmd_eq) hread hk hacc
  refine ⟨w, hw, hrsp.trans hdone.rsp.symm, fun a => ?_⟩
  rw [hmem, hdone.cmd_eq, hdone.mem, Memory.read_writeBytes, Memory.read_writeBytes]
  split_ifs <;> rfl

/-! ### Two commands that do not overlap -/

/-- R154: a command completes as before on the buffer that a command leaves which may not write what it touches. -/
theorem exec_after_other {i j : Instr} {s u s' u' : State} (hmem : s.mem = u.mem)
    (hdisjoint : ∀ a, ¬(s.mayTouch i a ∧ u.mayStore j a)) (hs : exec i s = .next s') (hu : exec j u = .next u') :
    ∃ s'', exec i { s with mem := u'.mem } = .next s'' ∧ s''.rsp = s'.rsp ∧
      s''.mem = u'.mem.writeBytes s.cmd.ptr (s.commandWrites i) := by
  obtain ⟨k, hk, hacc, hdone⟩ := completed_of_exec hs
  obtain ⟨_, -, -, hother⟩ := completed_of_exec hu
  have hread : loadsFrom i = true → ∀ l, l < k →
      s.bufferByte l = State.bufferByte { s with mem := u'.mem } l := fun _ l hl => by
    have htouch : s.mayTouch i (s.cmd.ptr + l) := by
      have hle := le_mayTouchBytes hk
      exact ⟨by omega, by omega⟩
    rw [State.bufferByte, State.bufferByte, hother.read_of_not_mayStore fun hst => hdisjoint _ ⟨htouch, hst⟩, hmem]
  have hop : sameOperands i s { s with mem := u'.mem } := sameOperands_of_eq i rfl rfl
  obtain ⟨s'', hs'', hrsp, hmem'', -⟩ := exec_next_congr hop hread hk hacc
  exact ⟨s'', hs'', hrsp.trans hdone.rsp.symm, hmem''⟩

/-- Two writes to addresses apart may be done in either order (R32). -/
theorem read_writeBytes_comm (m : Memory) {a b : Nat} {as bs : List Byte}
    (h : ∀ x, ¬((a ≤ x ∧ x < a + as.length) ∧ b ≤ x ∧ x < b + bs.length)) (x : Nat) :
    ((m.writeBytes a as).writeBytes b bs).read x = ((m.writeBytes b bs).writeBytes a as).read x := by
  simp only [Memory.read_writeBytes]
  split_ifs with hb ha
  · exact absurd ⟨ha, hb⟩ (h x)
  · rfl
  · rfl
  · rfl

/-- Settles O30: neither command sees the other's bytes, and their writes are apart. -/
theorem disjointCommandsRunInEitherOrder : Obligations.DisjointCommandsRunInEitherOrder := by
  intro i j s u s' u' hmem hdisjoint hs hu
  obtain ⟨s'', hs'', hsrsp, hsmem⟩ := exec_after_other hmem (fun a => (hdisjoint a).2) hs hu
  obtain ⟨u'', hu'', hursp, humem⟩ := exec_after_other hmem.symm (fun a h => (hdisjoint a).1 h.symm) hu hs
  obtain ⟨_, -, -, hsdone⟩ := completed_of_exec hs
  obtain ⟨_, -, -, hudone⟩ := completed_of_exec hu
  refine ⟨s'', u'', hs'', hu'', hsrsp, hursp, fun a => ?_⟩
  rw [hsmem, humem, hsdone.mem, hudone.mem, ← hmem]
  refine read_writeBytes_comm s.mem (fun x hx => ?_) a
  obtain ⟨⟨hge, hlt⟩, hge', hlt'⟩ := hx
  obtain ⟨-, htouch⟩ := mayStore_of_lt_length hge' hlt'
  exact (hdisjoint x).2 ⟨htouch, mayStore_of_lt_length hge hlt⟩

end Sys2Proof.Commands
end

section
/-! SUPPORT. Whose turn it is as a condition on the state, and the step of each turn. The statements that name one step
of the protocol are settled from these. -/

namespace Sys2Proof.Protocol

open Sys2Proof Sys2Proof.Machine

/-! ### Whose turn it is -/

/-- The states in which each turn comes (R12, R153, R160, R162). -/
def HasTurn (s : State) : Turn → Prop
  | .execute => s.busy = true ∧ ∀ k rest, s.host ≠ .reset (.inFlight k) :: rest
  | .abandon k => s.busy = true ∧ ∃ rest, s.host = .reset (.inFlight k) :: rest
  | .reset => s.busy = false ∧ ∃ p rest, s.host = .reset p :: rest ∧ (s.rsp = none ∨ p ≠ .idle)
  | .take r => s.busy = false ∧ s.rsp = some r ∧ ∀ p rest, s.host = .reset p :: rest → p = .idle
  | .issue c => s.busy = false ∧ s.rsp = none ∧ ∃ rest, s.host = .issue c :: rest
  | .store a b => s.busy = false ∧ s.rsp = none ∧ ∃ rest, s.host = .store a b :: rest
  | .wait => s.busy = false ∧ s.rsp = none ∧ s.host = []

theorem hasTurn_turn (s : State) : HasTurn s s.turn := by
  unfold State.turn
  split
  · next hbusy =>
    split
    · next k rest hhost => exact ⟨hbusy, rest, hhost⟩
    · next hno => exact ⟨hbusy, hno⟩
  · next hbusy =>
    have hidle : s.busy = false := Bool.eq_false_iff.mpr hbusy
    split
    · next r hr hh => exact ⟨hidle, hr, by simp [hh]⟩
    · next hr hh => exact ⟨hidle, _, _, hh, by simp⟩
    · next hr hh => exact ⟨hidle, _, _, hh, by simp⟩
    · next r hr hh => exact ⟨hidle, hr, by simp_all⟩
    · next r hr hh => exact ⟨hidle, hr, by simp [hh]⟩
    · next r hr hh => exact ⟨hidle, hr, by simp [hh]⟩
    · next hr hh => exact ⟨hidle, hr, hh⟩
    · next hr hh => exact ⟨hidle, _, _, hh, Or.inl hr⟩
    · next hr hh => exact ⟨hidle, hr, _, hh⟩
    · next hr hh => exact ⟨hidle, hr, _, hh⟩

theorem turn_of_hasTurn {s : State} {t : Turn} (h : HasTurn s t) : s.turn = t := by
  cases t with
  | execute =>
    obtain ⟨hbusy, hno⟩ := h
    rw [State.turn, if_pos hbusy]
    split
    · next k rest hhost => exact absurd hhost (hno k rest)
    · rfl
  | abandon k =>
    obtain ⟨hbusy, rest, hhost⟩ := h
    simp [State.turn, hbusy, hhost]
  | reset =>
    obtain ⟨hidle, p, rest, hhost, hp⟩ := h
    cases hr : s.rsp with
    | none => simp [State.turn, hidle, hhost, hr]
    | some r => cases p <;> simp_all [State.turn]
  | take r =>
    obtain ⟨hidle, hr, hno⟩ := h
    rw [State.turn, if_neg (Bool.eq_false_iff.mp hidle), hr]
    split <;> simp_all
  | issue c =>
    obtain ⟨hidle, hr, rest, hhost⟩ := h
    simp [State.turn, hidle, hr, hhost]
  | store a b =>
    obtain ⟨hidle, hr, rest, hhost⟩ := h
    simp [State.turn, hidle, hr, hhost]
  | wait =>
    obtain ⟨hidle, hr, hhost⟩ := h
    simp [State.turn, hidle, hr, hhost]

/-- The turn comes in the states of `HasTurn` and in no other. -/
theorem turn_eq_iff {s : State} {t : Turn} : s.turn = t ↔ HasTurn s t :=
  ⟨fun h => h ▸ hasTurn_turn s, turn_of_hasTurn⟩

/-! ### The step of each turn -/

theorem step_execute {s : State} (hbusy : s.busy = true) (hno : ∀ k rest, s.host ≠ .reset (.inFlight k) :: rest) :
    step s = s.executeLatched := by
  rw [step, turn_of_hasTurn (t := .execute) ⟨hbusy, hno⟩]

theorem step_abandon {s : State} {k : Nat} {rest : List HostEvent} (hbusy : s.busy = true)
    (hhost : s.host = .reset (.inFlight k) :: rest) : step s = s.dropEvent.abandon k := by
  rw [step, turn_of_hasTurn (t := .abandon k) ⟨hbusy, rest, hhost⟩]

theorem step_take {s : State} {r : Response} (hbusy : s.busy = false) (hr : s.rsp = some r)
    (hno : ∀ p rest, s.host = .reset p :: rest → p = .idle) : step s = .next (s.takeResponse r) := by
  rw [step, turn_of_hasTurn (t := .take r) ⟨hbusy, hr, hno⟩]

theorem step_issue {s : State} {c : Command} {rest : List HostEvent} (hbusy : s.busy = false) (hr : s.rsp = none)
    (hhost : s.host = .issue c :: rest) : step s = .next (s.dropEvent.issue c) := by
  rw [step, turn_of_hasTurn (t := .issue c) ⟨hbusy, hr, rest, hhost⟩]

theorem executeLatched_ok {s : State} {i : Instr} (h : decode s.cmd.cw = .ok i) : s.executeLatched = exec i s := by
  rw [State.executeLatched, State.latchedWord, h]

theorem executeLatched_error {s : State} {c : Reserved} (h : decode s.cmd.cw = .error c) :
    s.executeLatched = .next s.raiseIllegalCommand := by
  rw [State.executeLatched, State.latchedWord, h]

/-- R57: a word is reserved when the decoder refuses it. -/
theorem legalWord_eq_false_iff (cw : Byte) : legalWord cw = false ↔ ∃ c, decode cw = .error c := by
  rw [Bool.eq_false_iff, ne_eq, Encoding.legalWord_iff_decode]
  cases decode cw <;> simp

theorem idle_iff (s : State) : s.idle = true ↔ s.busy = false ∧ s.rsp = none := by simp [State.idle]

/-- Everything a step that answers a next state can have done, with what holds of the state it is done in. -/
inductive StepKind (s u : State) : Prop where
  | completes (i : Instr) (hbusy : s.busy = true) (hexec : exec i s = .next u)
  | refuses (hbusy : s.busy = true) (hword : legalWord s.cmd.cw = false) (hu : u = s.raiseIllegalCommand)
  | abandons (k : Nat) (habandon : s.dropEvent.abandon k = .next u)
  | resets (hu : u = s.dropEvent.resetUnit)
  | takes (r : Response) (hbusy : s.busy = false) (hr : s.rsp = some r) (hu : u = s.takeResponse r)
  | issues (c : Command) (hr : s.rsp = none) (hu : u = s.dropEvent.issue c)
  | stores (a : Nat) (b : Byte) (hidle : s.idle = true) (ha : a < 2 ^ s.cfg.aw)
      (hu : u = { s.dropEvent with mem := s.mem.write a b })
  | waits (hu : u = s)

theorem stepKind_of_step {s u : State} (h : step s = .next u) : StepKind s u := by
  rcases step_cases h with ⟨hturn, i, -, hexec⟩ | ⟨hturn, hword, hu⟩ | ⟨k, -, habandon⟩ | ⟨-, hu⟩ | ⟨r, hturn, hu⟩ |
    ⟨c, hturn, hu⟩ | ⟨a, b, hturn, hstore⟩ | ⟨-, hu⟩
  · obtain ⟨hbusy, -⟩ := turn_eq_iff.mp hturn
    exact .completes i hbusy hexec
  · obtain ⟨hbusy, -⟩ := turn_eq_iff.mp hturn
    exact .refuses hbusy ((legalWord_eq_false_iff _).mpr hword) hu
  · exact .abandons k habandon
  · exact .resets hu
  · obtain ⟨hbusy, hr, -⟩ := turn_eq_iff.mp hturn
    exact .takes r hbusy hr hu
  · obtain ⟨-, hr, -⟩ := turn_eq_iff.mp hturn
    exact .issues c hr hu
  · obtain ⟨hbusy, hr, -⟩ := turn_eq_iff.mp hturn
    obtain ⟨ha, hu⟩ := State.hostStore_eq_next hstore
    exact .stores a b ((idle_iff s).mpr ⟨hbusy, hr⟩) ha hu
  · exact .waits hu

/-! ### The statements of the protocol -/

/-- Settles O31. -/
theorem stepRunsTheLatchedCommand : Obligations.StepRunsTheLatchedCommand := fun _ _ hbusy hno hdec =>
  (step_execute hbusy hno).trans (executeLatched_ok hdec)

/-- Settles O32: the decoder refuses the word. -/
theorem stepTakesIllegalCommand : Obligations.StepTakesIllegalCommand := by
  intro s hbusy hno hword
  obtain ⟨c, hc⟩ := (legalWord_eq_false_iff _).mp hword
  exact (step_execute hbusy hno).trans (executeLatched_error hc)

/-- Settles O33. -/
theorem stepIssuesACommand : Obligations.StepIssuesACommand := by
  intro s c rest hbusy hr hhost
  rw [step_issue hbusy hr hhost, State.issue, State.dropEvent, hhost]
  rfl

/-- Settles O34. -/
theorem stepTakesAResponse : Obligations.StepTakesAResponse := fun _ _ hbusy hr hno => step_take hbusy hr hno

/-- Settles O35: a store below `2 ^ AW` is one byte write. -/
theorem stepWaitsAndStores : Obligations.StepWaitsAndStores := by
  constructor
  · intro s hidle hhost
    obtain ⟨hbusy, hr⟩ := (idle_iff s).mp hidle
    rw [step, turn_of_hasTurn (t := .wait) ⟨hbusy, hr, hhost⟩]
  · intro s a b rest hidle hhost
    obtain ⟨hbusy, hr⟩ := (idle_iff s).mp hidle
    have hstep : step s = s.dropEvent.hostStore a b := by
      rw [step, turn_of_hasTurn (t := .store a b) ⟨hbusy, hr, rest, hhost⟩]
    rw [hstep, State.hostStore, State.dropEvent_cfg]
    constructor
    · intro ha
      rw [if_pos ha, State.dropEvent, hhost]
      exact ⟨_, rfl, rfl, Memory.read_write s.mem a b⟩
    · intro ha
      rw [if_neg (not_lt.mpr ha)]

/-- Settles O36: the word is latched, and no reset is left to land in it. -/
theorem fetchWordRunsNext : Obligations.FetchWordRunsNext := by
  intro s w i hw hdec
  have hdec' : decode (BitVec.ofNat 8 (w % 2 ^ 8)) = .ok i := by
    rw [Nat.mod_eq_of_lt (b := 2 ^ 8) hw]
    simp only [decodeTableWord, if_true] at hdec
    split at hdec
    · next j hj => rw [hj, Option.some.inj hdec]
    · cases hdec
  refine stepRunsTheLatchedCommand _ i rfl (fun k rest hhost => ?_) hdec'
  have hhead := List.head?_dropWhile_not HostEvent.isReset s.host
  rw [State.withFetchWord, State.latchWord_host] at hhost
  rw [hhost] at hhead
  simp [HostEvent.isReset] at hhead

/-- Settles O39: reset lands where no command is in flight, and its fields are those of `State.resetUnit`. -/
theorem resetLeavesTheUnitIdle : Obligations.ResetLeavesTheUnitIdle := by
  refine ⟨rfl, fun s p rest hbusy hhost hp => ?_⟩
  have hstep : step s = .next s.dropEvent.resetUnit := by
    rw [step, turn_of_hasTurn (t := .reset) ⟨hbusy, p, rest, hhost, hp⟩]
  exact ⟨_, hstep, rfl, rfl, rfl, rfl, congrArg List.tail hhost, rfl, rfl, rfl, rfl⟩

/-- Settles O40: the region of `Config.resetParams` is the whole buffer space. -/
theorem resetValuesTheModelNames : Obligations.ResetValuesTheModelNames := by
  refine ⟨rfl, rfl, rfl, rfl, rfl, rfl, fun a => rfl, rfl, rfl, fun a => ?_⟩
  have hall : State.reset.mayAccess a = (decide (a < 2 ^ 32) && (rangeContains ⟨0, 2 ^ 32⟩ a || false)) := rfl
  simp [hall, rangeContains]

/-- Settles O43. -/
theorem resetMeetsTheInvariant : Obligations.ResetMeetsTheInvariant := rfl

end Sys2Proof.Protocol
end

section
/-! SUPPORT. The decoder on the words of the commands, and its count of the words of each class (R57, R59). -/

namespace Sys2Proof.WordCount

open Sys2Proof Sys2Proof.Machine

/-- R59: each of the 28 words is evaluated. -/
theorem decode_encode (i : Instr) : decode (encode i) = .ok i := by cases i <;> rfl

/-- Settles O3: the way back is that an accepted word is the word of its command. -/
theorem decodeAndEncodeAgree : Obligations.DecodeAndEncodeAgree :=
  ⟨decode_encode, fun _ _ => Encoding.encode_of_decode_eq_ok⟩

/-- Settles O4: the 256 words are evaluated, once for each class. -/
theorem reservedWordsCountByClass : Obligations.ReservedWordsCountByClass := ⟨rfl, rfl, rfl, rfl⟩

end Sys2Proof.WordCount
end

section
/-! SUPPORT. The invariant of the machine, kept by each turn of the protocol. The statement that every step keeps it is
settled from these, and so are the smaller ones about what no step does. -/

namespace Sys2Proof.Invariant

open Sys2Proof Sys2Proof.Machine Sys2Proof.Commands Sys2Proof.Protocol

/-! ### The parts of the invariant -/

theorem invariant_iff (s : State) : s.invariant = true ↔
    s.mem.wf = true ∧ s.mem.within s.cfg.aw = true ∧ s.cmd.ptr < 2 ^ s.cfg.aw ∧
      (s.busy = true → s.rsp = none) ∧ (s.idle = true ∨ s.unanswered = true) := by
  cases hb : s.busy <;> simp [State.invariant, hb, and_assoc]

/-- R156: a command in flight is unanswered. -/
theorem unanswered_of_busy {s : State} (hs : s.invariant = true) (hbusy : s.busy = true) : s.unanswered = true := by
  obtain ⟨-, -, -, -, hun⟩ := (invariant_iff s).mp hs
  exact hun.resolve_left (by simp [State.idle, hbusy])

/-! ### The turns that touch memory -/

/-- A reset unit meets the invariant where its memory is canonical and inside the buffer space. -/
theorem invariant_resetUnit {s : State} (hwf : s.mem.wf = true) (hwithin : s.mem.within s.cfg.aw = true) :
    s.resetUnit.invariant = true :=
  (invariant_iff _).mpr ⟨hwf, hwithin, Nat.two_pow_pos _, fun h => absurd h Bool.false_ne_true, Or.inl rfl⟩

/-- R37: a command writes no address that it may not access. -/
theorem exec_keeps_invariant {s u : State} {i : Instr} (hs : s.invariant = true) (hbusy : s.busy = true)
    (h : exec i s = .next u) : u.invariant = true := by
  obtain ⟨hwf, hwithin, hptr, -, -⟩ := (invariant_iff s).mp hs
  obtain ⟨k, hk, hacc, hdone⟩ := completed_of_exec h
  obtain ⟨hcfg, hcmd, -, -, -, hunanswered, -⟩ := hdone.surroundings
  have hle := length_commandWrites_le hk
  rw [invariant_iff, hdone.mem, hcfg, hcmd, hunanswered, hdone.busy]
  exact ⟨Memory.wf_writeBytes _ _ hwf,
    Memory.within_writeBytes (fun j hj => lt_of_mayAccess (hacc j (by omega))) hwithin, hptr,
    fun h => absurd h Bool.false_ne_true, Or.inr (unanswered_of_busy hs hbusy)⟩

/-- R100, R114: an `app` or `venc` that has begun its accesses may make all of them. -/
theorem mayAccessRange_of_faultWithin {s : State} {i : Instr} {k : Nat} (hk : k ≠ 0) (hst : storesTo i = true)
    (h : s.faultWithin i k = none) : s.mayAccessRange s.cmd.ptr (mayTouchBytes i s.cmd.len) := by
  rw [State.faultWithin, if_neg hk] at h
  rw [storesTo] at hst
  rw [mayTouchBytes]
  cases hsh : i.shape with
  | app e sz | venc sz =>
    simp only [hsh, Option.map_eq_none_iff] at h
    exact State.firstOffending_none.mp h
  | rev sz | ext e sz | vdec sz => simp [hsh] at hst

/-- R162: the writes a command has performed when reset lands are inside the buffer space. -/
theorem lt_of_performed {s : State} {i : Instr} {k j : Nat} (h : s.faultWithin i k = none)
    (hj : j < ((s.commandWrites i).take k).length) : s.cmd.ptr + j < 2 ^ s.cfg.aw := by
  rw [List.length_take, lt_min_iff] at hj
  obtain ⟨hjk, hjlen⟩ := hj
  obtain ⟨hst, -, hlt⟩ := mayStore_of_lt_length (s := s) (i := i) (Nat.le_add_right s.cmd.ptr j) (by omega)
  exact lt_of_mayAccess (mayAccessRange_of_faultWithin (by omega) hst h j (by omega))

theorem abandon_keeps_invariant {s u : State} {k : Nat} (hs : s.invariant = true) (h : s.abandon k = .next u) :
    u.invariant = true := by
  obtain ⟨hwf, hwithin, -, -, -⟩ := (invariant_iff s).mp hs
  rcases State.abandon_eq_next h with ⟨-, rfl⟩ | ⟨i, -, hfault, rfl⟩
  · exact invariant_resetUnit hwf hwithin
  · refine invariant_resetUnit (State.wf_spoil _ _ (Memory.wf_writeBytes _ _ hwf)) ?_
    rw [State.spoil_frame]
    exact State.within_spoil _ _ (Memory.within_writeBytes (fun j hj => lt_of_performed hfault hj) hwithin)

/-- Settles O42: by what the step does; a step outside a command leaves the unit idle or issues one. -/
theorem stepKeepsTheInvariant : Obligations.StepKeepsTheInvariant := by
  intro s u hs h
  obtain ⟨hwf, hwithin, hptr, hnone, -⟩ := (invariant_iff s).mp hs
  rw [invariant_iff]
  cases stepKind_of_step h with
  | completes i hbusy hexec => exact (invariant_iff u).mp (exec_keeps_invariant hs hbusy hexec)
  | refuses hbusy _ hu =>
    have hun := unanswered_of_busy hs hbusy
    subst hu
    exact ⟨hwf, hwithin, hptr, fun h => absurd h Bool.false_ne_true, Or.inr hun⟩
  | abandons k habandon => exact (invariant_iff u).mp (abandon_keeps_invariant (s := s.dropEvent) hs habandon)
  | resets hu => exact hu ▸ (invariant_iff _).mp (invariant_resetUnit (s := s.dropEvent) hwf hwithin)
  | takes r hbusy _ hu =>
    subst hu
    exact ⟨hwf, hwithin, hptr, fun _ => rfl, Or.inl ((idle_iff _).mpr ⟨hbusy, rfl⟩)⟩
  | issues c hr hu =>
    subst hu
    exact ⟨hwf, hwithin, Nat.mod_lt _ (Nat.two_pow_pos _), fun _ => hr, Or.inr rfl⟩
  | stores a b hidle ha hu =>
    subst hu
    exact ⟨Memory.wf_write a b hwf, Memory.within_write b ha hwithin, hptr, hnone, Or.inl hidle⟩
  | waits hu => exact hu ▸ (invariant_iff s).mp hs

/-! ### What no step does -/

/-- What the end of a command leaves: the parameters and the record of the run, the unit no longer busy. -/
structure EndsCommand (s u : State) : Prop where
  cfg : u.cfg = s.cfg
  busy : u.busy = false
  faultMark : u.faultMark = s.faultMark
  unanswered : u.unanswered = s.unanswered
  taken : u.taken = s.taken

theorem endsCommand_of_exec {s u : State} {i : Instr} (h : exec i s = .next u) : EndsCommand s u := by
  obtain ⟨k, -, -, hdone⟩ := completed_of_exec h
  obtain ⟨hcfg, -, -, htaken, hmark, hunanswered, -⟩ := hdone.surroundings
  exact ⟨hcfg, hdone.busy, hmark, hunanswered, htaken⟩

theorem endsCommand_of_abandon {s u : State} {k : Nat} (h : s.dropEvent.abandon k = .next u) : EndsCommand s u := by
  rw [State.abandon_frame h]
  exact ⟨rfl, rfl, rfl, rfl, rfl⟩

/-- Settles O44: by what the step does. -/
theorem stepKeepsTheParameters : Obligations.StepKeepsTheParameters := by
  intro s u h
  cases stepKind_of_step h with
  | completes i _ hexec => exact (endsCommand_of_exec hexec).cfg
  | abandons k habandon => exact (endsCommand_of_abandon habandon).cfg
  | refuses _ _ hu | resets hu | takes r _ _ hu | issues c _ hu | stores a b _ _ hu | waits hu => subst hu; rfl

/-- R149: only taking `IllegalCommand` writes the mark. -/
theorem faultMark_of_step {s u : State} (h : step s = .next u) :
    u.faultMark = s.faultMark ∨ (s.busy = true ∧ legalWord s.cmd.cw = false ∧ u.faultMark = true) := by
  cases stepKind_of_step h with
  | completes i _ hexec => exact Or.inl (endsCommand_of_exec hexec).faultMark
  | refuses hbusy hword hu => exact Or.inr ⟨hbusy, hword, hu ▸ rfl⟩
  | abandons k habandon => exact Or.inl (endsCommand_of_abandon habandon).faultMark
  | resets hu | takes r _ _ hu | issues c _ hu | stores a b _ _ hu | waits hu => exact Or.inl (by subst hu; rfl)

/-- Settles O45. -/
theorem faultMarkIsSticky : Obligations.FaultMarkIsSticky := by
  intro s u h
  rcases faultMark_of_step h with hkept | ⟨hbusy, hword, hset⟩
  · exact ⟨fun hs => hkept.trans hs, fun hs hu => absurd (hs.symm.trans (hkept.symm.trans hu)) Bool.false_ne_true⟩
  · exact ⟨fun _ => hset, fun _ _ => ⟨hbusy, hword⟩⟩

/-- Settles O46: the host's next event decides whether reset lands in the command. -/
theorem busyEndsByResponseOrReset : Obligations.BusyEndsByResponseOrReset := by
  intro s u hbusy h
  by_cases hreset : ∃ k rest, s.host = .reset (.inFlight k) :: rest
  · obtain ⟨k, rest, hhost⟩ := hreset
    rw [step_abandon hbusy hhost] at h
    exact ⟨(endsCommand_of_abandon h).busy, Or.inr ⟨k, rest, hhost⟩⟩
  · rw [step_execute hbusy fun k rest hhost => hreset ⟨k, rest, hhost⟩] at h
    cases hdec : decode s.cmd.cw with
    | ok i =>
      obtain ⟨k, -, -, hdone⟩ := completed_of_exec ((executeLatched_ok hdec).symm.trans h)
      exact ⟨hdone.busy, Or.inl ⟨_, hdone.rsp⟩⟩
    | error c =>
      cases (executeLatched_error hdec).symm.trans h
      exact ⟨rfl, Or.inl ⟨_, rfl⟩⟩

theorem goodEnd_iff (s : State) : s.goodEnd = true ↔
    s.idle = true ∧ s.host = [] ∧ s.unanswered = false ∧ s.faultMark = false := by
  simp [State.goodEnd, and_assoc]

/-- Settles O47: a good end has no unanswered command, and only the taking of a response answers one. -/
theorem goodEndComesByTakingAResponse : Obligations.GoodEndComesByTakingAResponse := by
  intro s u hs h hgood
  obtain ⟨-, -, hanswered, -⟩ := (goodEnd_iff u).mp hgood
  have hkept : u.unanswered ≠ s.unanswered := by simp [hs, hanswered]
  cases stepKind_of_step h with
  | completes i _ hexec => exact absurd (endsCommand_of_exec hexec).unanswered hkept
  | abandons k habandon => exact absurd (endsCommand_of_abandon habandon).unanswered hkept
  | issues c _ hu => exact absurd (hanswered.symm.trans (congrArg State.unanswered hu)) Bool.false_ne_true
  | takes r hbusy hr hu => exact ⟨r, hbusy, hr, hu ▸ rfl, hu ▸ rfl⟩
  | refuses _ _ hu | resets hu | stores a b _ _ hu | waits hu => exact absurd (by subst hu; rfl) hkept

end Sys2Proof.Invariant
end

section
/-! SUPPORT. A command in flight reaches its response in one step, a command issued to an idle unit is answered in
three, and so a list of commands runs to its end (R156, R173). -/

namespace Sys2Proof.Runs

open Sys2Proof Sys2Proof.Machine Sys2Proof.Commands Sys2Proof.Protocol Sys2Proof.Invariant

/-! ### From the command in flight to its response -/

/-- The addresses a command may touch may be accessed; a reserved word touches none (R141). -/
def MayRun (s : State) (c : Command) : Prop :=
  ∀ i, decode c.cw = .ok i → s.mayAccessRange c.ptr (mayTouchBytes i c.len)

/-- What the step of a command in flight leaves, reserved word or not: `err` and the mark say which it was. -/
structure Responds (s u : State) (r : Response) : Prop where
  ends : u.busy = false ∧ u.rsp = some r
  err : r.err = !legalWord s.cmd.cw
  faultMark : u.faultMark = (s.faultMark || !legalWord s.cmd.cw)
  cfg : u.cfg = s.cfg
  host : u.host = s.host
  taken : u.taken = s.taken

/-- R144, R173: the step of a command in flight whose addresses may be accessed ends with a response. -/
theorem exists_responds {s : State} (hbusy : s.busy = true) (hno : ∀ p rest, s.host ≠ .reset p :: rest)
    (hrun : MayRun s s.cmd) : ∃ u r, step s = .next u ∧ Responds s u r := by
  rw [step_execute hbusy fun k => hno (.inFlight k)]
  cases hdec : decode s.cmd.cw with
  | ok i =>
    obtain ⟨k, hk⟩ := exists_requiresBytes s i
    have hlegal : legalWord s.cmd.cw = true := (Encoding.legalWord_iff_decode _).mpr ⟨i, hdec⟩
    obtain ⟨u, hu, hdone⟩ := exec_next hk fun j hj => hrun i hdec j (hj.trans_le (le_mayTouchBytes hk))
    obtain ⟨hcfg, -, hhost, htaken, hmark, -, -⟩ := hdone.surroundings
    refine ⟨u, _, (executeLatched_ok hdec).trans hu, ⟨hdone.busy, hdone.rsp⟩, ?_, ?_, hcfg, hhost, htaken⟩
    · rw [err_responseTo, hlegal, Bool.not_true]
    · rw [hmark, hlegal, Bool.not_true, Bool.or_false]
  | error c =>
    have hlegal : legalWord s.cmd.cw = false := (legalWord_eq_false_iff _).mpr ⟨c, hdec⟩
    refine ⟨_, _, executeLatched_error hdec, ⟨rfl, rfl⟩, ?_, ?_, rfl, rfl, rfl⟩
    · rw [hlegal, Bool.not_false]
    · rw [hlegal, Bool.not_false, Bool.or_true, State.raiseIllegalCommand_faultMark]

/-- Settles O37: the response is that of a legal word, and the host has nothing to do before it takes it. -/
theorem commandsReachTheirResponse : Obligations.CommandsReachTheirResponse := by
  intro s i hbusy hno hdec hacc
  have hrun : MayRun s s.cmd := fun j hj => Except.ok.inj (hdec.symm.trans hj) ▸ hacc
  obtain ⟨u, r, hstep, hresp⟩ := exists_responds hbusy hno hrun
  obtain ⟨hidle, hr⟩ := hresp.ends
  have hlegal : legalWord s.cmd.cw = true := (Encoding.legalWord_iff_decode _).mpr ⟨i, hdec⟩
  have htake := step_take hidle hr fun p rest hhost => absurd (hresp.host ▸ hhost) (hno p rest)
  refine ⟨u, r, _, hstep, hr, by rw [hresp.err, hlegal, Bool.not_true], htake, (idle_iff _).mpr ⟨hidle, rfl⟩, ?_⟩
  rw [State.takeResponse_taken, hresp.taken]

/-! ### From the issue to the taking -/

/-- One step at the front of a run. -/
theorem run_succ {s u : State} (h : step s = .next u) (n : Nat) : core.run (n + 1) s = core.run n u := by
  have hcore : core.step s = .next u := h
  simp only [Host.Core.run, hcore]

/-- R5, log 15: an address that may be accessed has no bits above `AW`, so the port cuts nothing of it. -/
theorem mayRun_issue {s : State} {c : Command} (h : MayRun s c) :
    MayRun (s.dropEvent.issue c) (s.dropEvent.issue c).cmd := by
  intro i hi j hj
  have hptr : c.ptr % 2 ^ s.cfg.aw = c.ptr := Nat.mod_eq_of_lt (by
    have hfirst := lt_of_mayAccess (h i hi 0 (Nat.zero_lt_of_lt hj))
    rwa [Nat.add_zero] at hfirst)
  rw [State.issue_cmd, State.dropEvent_cfg, hptr]
  exact h i hi j hj

/-- What the three steps of a command leave: an idle unit with one more response taken. -/
structure Answered (s u : State) (c : Command) (r : Response) : Prop where
  idle : u.idle = true
  host : u.host = s.host.tail
  taken : u.taken = s.taken ++ [r]
  err : r.err = !legalWord c.cw
  faultMark : u.faultMark = (s.faultMark || !legalWord c.cw)
  unanswered : u.unanswered = false
  cfg : u.cfg = s.cfg

/-- R12: issue, execution and the taking of the response, a step each (log 5). -/
theorem exists_answered {s : State} {c : Command} {rest : List HostEvent} (hidle : s.idle = true)
    (hhost : s.host = .issue c :: rest) (hno : ∀ p more, rest ≠ .reset p :: more) (hrun : MayRun s c) :
    ∃ u r, (∀ n, core.run (n + 3) s = core.run n u) ∧ Answered s u c r := by
  obtain ⟨hbusy, hr⟩ := (idle_iff s).mp hidle
  have hrest : (s.dropEvent.issue c).host = rest := congrArg List.tail hhost
  obtain ⟨v, r, hexec, hresp⟩ :=
    exists_responds (s := s.dropEvent.issue c) rfl (fun p more => hrest ▸ hno p more) (mayRun_issue hrun)
  obtain ⟨hdone, hvr⟩ := hresp.ends
  have htake := step_take hdone hvr fun p more hv => absurd (hrest.symm.trans (hresp.host.symm.trans hv)) (hno p more)
  refine ⟨v.takeResponse r, r, fun n => ?_, (idle_iff _).mpr ⟨hdone, rfl⟩, hresp.host, congrArg (· ++ [r]) hresp.taken,
    hresp.err, hresp.faultMark, rfl, hresp.cfg⟩
  rw [run_succ (step_issue hbusy hr hhost), run_succ hexec, run_succ htake]

/-! ### A list of commands -/

/-- R156: the run of a list, with the mark and the unanswered command that it leaves. -/
theorem run_commands (cs : List Command) (s : State) (hidle : s.idle = true) (hhost : s.host = cs.map HostEvent.issue)
    (hrun : ∀ c ∈ cs, MayRun s c) :
    ∃ (u : State) (rs : List Response), core.run (3 * cs.length) s = .next u ∧ u.idle = true ∧ u.host = [] ∧
      u.taken = s.taken ++ rs ∧ rs.map (fun r => r.err) = cs.map (fun c => !legalWord c.cw) ∧
      u.faultMark = (s.faultMark || cs.any fun c => !legalWord c.cw) ∧
      u.unanswered = (cs.isEmpty && s.unanswered) := by
  induction cs generalizing s with
  | nil => exact ⟨s, [], rfl, hidle, hhost, by simp, rfl, by simp, by simp⟩
  | cons c cs ih =>
    have hno : ∀ p more, cs.map HostEvent.issue ≠ .reset p :: more := by cases cs <;> simp
    obtain ⟨v, r, hthree, hans⟩ := exists_answered hidle hhost hno (hrun c List.mem_cons_self)
    have hmay (a : Nat) : v.mayAccess a = s.mayAccess a := by simp only [State.mayAccess, hans.cfg]
    have hrun' : ∀ d ∈ cs, MayRun v d := fun d hd i hi j hj =>
      (hmay _).trans (hrun d (List.mem_cons_of_mem c hd) i hi j hj)
    obtain ⟨u, rs, hu, huidle, huhost, htaken, herr, hmark, hun⟩ :=
      ih v hans.idle (hans.host.trans (congrArg List.tail hhost)) hrun'
    refine ⟨u, r :: rs, (hthree _).trans hu, huidle, huhost, ?_, ?_, ?_, ?_⟩
    · rw [htaken, hans.taken, List.append_assoc, List.singleton_append]
    · rw [List.map_cons, List.map_cons, herr, hans.err]
    · rw [hmark, hans.faultMark, List.any_cons, Bool.or_assoc]
    · rw [hun, hans.unanswered, Bool.and_false, List.isEmpty_cons, Bool.false_and]

/-- Settles O38: the end of the run is good when the mark and the unanswered command it leaves are clear. -/
theorem commandListRunsToItsEnd : Obligations.CommandListRunsToItsEnd := by
  intro s cs hidle hhost hrun
  obtain ⟨u, rs, hu, huidle, huhost, htaken, herr, hmark, hun⟩ := run_commands cs s hidle hhost hrun
  refine ⟨u, rs, hu, huidle, huhost, htaken, herr, ?_⟩
  have hmark' : u.faultMark = false ↔ s.faultMark = false ∧ ∀ c ∈ cs, legalWord c.cw = true := by simp [hmark]
  have hun' : u.unanswered = false ↔ (cs = [] → s.unanswered = false) := by cases cs <;> simp [hun]
  rw [goodEnd_iff, hmark', hun']
  exact ⟨fun ⟨_, _, hlast, hclear, hall⟩ => ⟨hclear, hlast, hall⟩,
    fun ⟨hclear, hlast, hall⟩ => ⟨huidle, huhost, hlast, hclear, hall⟩⟩

end Sys2Proof.Runs
end

section
/-! SUPPORT. A legal command in flight that reset abandons, its addresses accessible (R162, U9). -/

namespace Sys2Proof.Abandon

open Sys2Proof Sys2Proof.Machine Sys2Proof.Commands Sys2Proof.FixedWidthCommands Sys2Proof.Protocol Sys2Proof.Invariant

/-- R143: a command whose addresses may all be accessed has raised no fault after any number of accesses. -/
theorem faultWithin_eq_none {s : State} {i : Instr} (k : Nat)
    (hacc : s.mayAccessRange s.cmd.ptr (mayTouchBytes i s.cmd.len)) : s.faultWithin i k = none := by
  rw [mayTouchBytes] at hacc
  rw [State.faultWithin]
  split_ifs
  · rfl
  · cases hsh : i.shape with
    | rev sz => rfl
    | ext e sz | app e sz | venc sz =>
      simp only [hsh] at hacc
      simp only [State.firstOffending_none.mpr hacc, Option.map_none]
    | vdec sz =>
      simp only [hsh] at hacc
      have hcount : min k s.count ≤ 255 := (min_le_right _ _).trans (Nat.le_of_lt_succ s.cmd.len.isLt)
      rcases State.vdecLoop_cases sz (min k s.count) s.vdecStart (by simpa using hcount) with
        ⟨l, -, -, -, -, hrun⟩ | ⟨j, hj, -, -, hbad, -⟩
      · simp only [hrun]
      · exact absurd (hacc j (hj.trans_le (min_le_right _ _))) (Bool.eq_false_iff.mp hbad)

/-- R45, R162: the write set is what the command may store to. -/
theorem mayStore_iff (s : State) (i : Instr) (a : Nat) :
    s.mayStore i a ↔ s.cmd.ptr ≤ a ∧ a < s.cmd.ptr + writeSetBytes i := by
  rw [State.mayStore, State.mayTouch, storesTo, mayTouchBytes, writeSetBytes]
  cases i.shape <;> simp

/-- R162: after `k` writes, an address holds what the completed command leaves there where it is among them, and its old
byte where it is not. -/
theorem read_take_commandWrites {s x : State} {i : Instr} {n : Nat} (hx : Completed i n s x) (k : Nat) {a : Nat}
    (ha : s.cmd.ptr ≤ a) :
    (s.mem.writeBytes s.cmd.ptr ((s.commandWrites i).take k)).read a =
      if a < s.cmd.ptr + min k (s.commandWrites i).length then x.mem.read a else s.mem.read a := by
  obtain ⟨j, rfl⟩ := Nat.exists_eq_add_of_le ha
  split_ifs with hj
  · have hjk : j < ((s.commandWrites i).take k).length := by rw [List.length_take]; omega
    rw [read_writeBytes_add _ _ hjk, hx.read_written (by omega), List.getD_eq_getElem _ _ hjk, List.getElem_take,
      List.getElem_eq_getD 0]
  · exact read_writeBytes_outside _ (by rw [List.length_take]; omega)

/-- R162, U9: what a legal command leaves that reset abandons after `k` accesses, none of which has raised a fault. -/
theorem abandon_eq {s : State} {i : Instr} {k : Nat} (hdec : decode s.cmd.cw = .ok i)
    (hfault : s.faultWithin i k = none) : s.abandon k = .next (State.spoil (writeSetBytes i) s.cmd.ptr
      { s with mem := s.mem.writeBytes s.cmd.ptr ((s.commandWrites i).take k) }).resetUnit := by
  rw [State.abandon, State.latchedWord, hdec]
  simp only [hfault]

theorem host_of_abandon {s u : State} {k : Nat} (h : s.abandon k = .next u) : u.host = s.host := by
  rw [State.abandon_frame h]
  rfl

/-- Settles O41: the write set holds free values over the first `k` writes of the command; nothing else is touched. -/
theorem abandonedCommandSpoilsItsWriteSet : Obligations.AbandonedCommandSpoilsItsWriteSet := by
  intro s k rest i hbusy hhost hdec hacc
  obtain ⟨n, hn⟩ := exists_requiresBytes s i
  obtain ⟨x, hexec, hdone⟩ := exec_next hn fun j hj => hacc j (hj.trans_le (le_mayTouchBytes hn))
  have habandon : s.dropEvent.abandon k = .next (State.spoil (writeSetBytes i) s.cmd.ptr
      { s.dropEvent with mem := s.mem.writeBytes s.cmd.ptr ((s.commandWrites i).take k) }).resetUnit :=
    abandon_eq hdec (faultWithin_eq_none k hacc)
  have hends := endsCommand_of_abandon habandon
  refine ⟨_, x, _, (step_abandon hbusy hhost).trans habandon, hends.busy, rfl,
    (host_of_abandon habandon).trans (congrArg List.tail hhost), hends.taken, hends.cfg, hends.unanswered, hexec,
    hdone.rsp,
    fun a ha => ?outside, fun a ha => ?inside⟩
  case outside =>
    rw [State.resetUnit_mem, State.read_spoil,
      if_neg fun hin => ha ((mayStore_iff s i a).mpr ⟨hin.1, hin.2.1⟩)]
    refine read_writeBytes_outside _ ?_
    by_contra hin
    rw [List.length_take] at hin
    exact ha (mayStore_of_lt_length (by omega) (by omega))
  case inside =>
    have ⟨hst, hge, hlt⟩ := ha
    obtain ⟨-, -, hcnt⟩ := length_commandWrites hn hst
    have haccess : s.mayAccess a = true := by
      have hlast := hacc (a - s.cmd.ptr) (by omega)
      rwa [Nat.add_sub_cancel' hge] at hlast
    obtain ⟨-, hset⟩ := (mayStore_iff s i a).mp ha
    rw [State.resetUnit_mem, State.read_spoil, if_pos ⟨hge, hset, haccess⟩, hcnt, ← read_take_commandWrites hdone k hge]
    rfl

end Sys2Proof.Abandon
end
